-- ==== Sys2Proof/Word.lean ====
section
/-!
DEFINITION. The two word sizes of the PEF: the 32-bit command word and register word (R34, R35, R80) and the 8-bit byte
of the payload buffer (R50).
-/

namespace Sys2Proof

/-- A command word, or a value of the register read port (R34, R35). -/
abbrev Word := BitVec 32

/-- One byte of the payload buffer (R50, R51). -/
abbrev Byte := BitVec 8

end Sys2Proof
end

