-- ==== Sys2Proof/Syntax.lean ====
section
/-!
DEFINITION. The commands of the PEF, one constructor per row of spec/opcode_table.json (R86). The operands are the fields of
the row's format at their full width (R82 to R85), legal or not: a field value the spec calls illegal (BRT not a brightness
code, MODE 9 to 15) still selects the row (R86) and raises ILLEGAL when it runs (R89, R202; log entry 9).
-/

namespace Sys2Proof

/-- One command of the host (R34, R86). -/
inductive Instr where
  /-- Format Z, no operand (R82, R110). -/
  | nop
  /-- Format B: BRT (R83, R112). -/
  | init (brt : BitVec 8)
  /-- Format B: BRT (R83, R116). -/
  | setbrt (brt : BitVec 8)
  /-- Format M: BLK, BRD, SPD, MODE, NGRP (R84, R130). -/
  | addmsg (blk brd : Bool) (spd : BitVec 3) (mode : BitVec 4) (ngrp : BitVec 19)
  /-- Format P: V, Y, X (R85, R152). -/
  | setpix (v : Bool) (y : BitVec 4) (x : BitVec 23)
  /-- Format Z, no operand (R82, R172). -/
  | final
deriving DecidableEq, Repr

end Sys2Proof
end

