-- ==== Sys2Proof/Decode.lean ====
section
/-!
DEFINITION. The decoder of a 32-bit command word (R80 to R86), total and rejecting by name; the legality test `encoding_ok`
of R89, transcribed on the word; and the encoder, written from the same formats.
-/

namespace Sys2Proof

/-- Why a word is no row of the opcode map (R86, R87). Either way the word is an illegal encoding and raises ILLEGAL (R89). -/
inductive DecodeError where
  /-- OP is `0x6` to `0xF` (R87). -/
  | reservedOpcode
  /-- A reserved field RSVD is not 0 (R82, R83, R87). -/
  | reservedField
deriving DecidableEq, Repr

/-- `w.OP = w[31:28]` (R81). -/
def opField (w : Word) : BitVec 4 := w.extractLsb' 28 4

/-- The command a word selects, by the opcode map (R86): OP, and the reserved fields of formats Z and B. -/
def decode (w : Word) : Except DecodeError Instr :=
  if opField w = 0x0 then
    if w.extractLsb' 0 28 = 0 then .ok .nop else .error .reservedField
  else if opField w = 0x1 then
    if w.extractLsb' 8 20 = 0 then .ok (.init (w.extractLsb' 0 8)) else .error .reservedField
  else if opField w = 0x2 then
    if w.extractLsb' 8 20 = 0 then .ok (.setbrt (w.extractLsb' 0 8)) else .error .reservedField
  else if opField w = 0x3 then
    .ok (.addmsg (w.getLsbD 27) (w.getLsbD 26) (w.extractLsb' 23 3) (w.extractLsb' 19 4) (w.extractLsb' 0 19))
  else if opField w = 0x4 then
    .ok (.setpix (w.getLsbD 27) (w.extractLsb' 23 4) (w.extractLsb' 0 23))
  else if opField w = 0x5 then
    if w.extractLsb' 0 28 = 0 then .ok .final else .error .reservedField
  else .error .reservedOpcode

/-- `encoding_ok(w)`, R89 line by line. -/
def encodingOk (w : Word) : Bool :=
  match (opField w).toNat with
  | 0x0 | 0x5 => decide (w.extractLsb' 0 28 = 0)
  | 0x1 | 0x2 => decide (w.extractLsb' 8 20 = 0) && [0x00#8, 0x10#8, 0x20#8, 0x30#8].contains (w.extractLsb' 0 8)
  | 0x3 => decide ((w.extractLsb' 19 4).toNat ≤ 8)
  | 0x4 => true
  | _ => false

/-- The word of a command, its format's fields from bit 31 down (R82 to R85). -/
def encode : Instr → Word
  | .nop => 0x0#4 ++ 0#28
  | .init brt => 0x1#4 ++ 0#20 ++ brt
  | .setbrt brt => 0x2#4 ++ 0#20 ++ brt
  | .addmsg blk brd spd mode ngrp => 0x3#4 ++ BitVec.ofBool blk ++ BitVec.ofBool brd ++ spd ++ mode ++ ngrp
  | .setpix v y x => 0x4#4 ++ BitVec.ofBool v ++ y ++ x
  | .final => 0x5#4 ++ 0#28

/-- The command the decoder reads from an instruction whose bits are `w`, `nbits` of them as spec/opcode_table.json numbers
them; every bit above `nbits` is 0. A command is one word and no byte order applies to it (R80). -/
def decodeTableWord (nbits w : Nat) : Option Instr :=
  match decode (BitVec.ofNat 32 (w % 2 ^ nbits)) with
  | .ok i => some i
  | .error _ => none

end Sys2Proof
end

