-- ==== Sys2Proof/Config.lean ====
section
/-!
DEFINITION. The parameters of 00_scope.md R6 that stay parameters of the model: `MAGIC` (with its length), `RAW_CAPACITY`,
and the chunk size a readout stream chooses. The host-side OPEN parameters `DEFAULT_SPEED_CODE` and `DEFAULT_BRIGHTNESS` are
arguments of the host-side functions in Sys2Proof/Machine/HostSide.lean; the PEF itself has no default (R96, R114).
-/

namespace Sys2Proof

/-- The parameters fixed for one PEF (R6, D1, D6): the magic constant and the bytes of buffer storage, with the constraint
`RAW_CAPACITY >= HDR_LEN` where `HDR_LEN = MAGIC_LEN + 59`. DEDUCED (log entry 5): a capacity also fits the 32-bit address
and length registers of R25, R26 and R30, because R9 lets no register value wrap. -/
structure Params where
  magic : List Byte
  rawCapacity : Nat
  hdrFits : magic.length + 59 ≤ rawCapacity
  capFits : rawCapacity < 2 ^ 32
deriving DecidableEq, Repr

/-- `CHUNK_SIZE` is OPEN, chosen per readout stream: 64 bytes for USB or 16 bytes for BLE (R6, R176). -/
inductive ChunkSize where
  | usb
  | ble
deriving DecidableEq, Repr

end Sys2Proof
end

