-- ==== Sys2Proof/Machine/Layout.lean ====
section
/-!
DEFINITION. The fixed counts of R6 and R7, the header byte map of R55 in terms of `MAGIC_LEN`, and the decided parameter values
of R6. Addresses are natural numbers (R9).
-/

namespace Sys2Proof.Machine

/-- `MAX_SLOTS`: "at most 8 per payload" (R6). -/
abbrev maxSlots : Nat := 8

/-- `ROWS`: the rows of a column group (R6), and the bytes of one (R58). -/
abbrev rowsPerGroup : Nat := 11

/-- `GROUP_W`: the columns of a column group (R6). -/
abbrev groupWidth : Nat := 8

/-- `MAX_GROUPS`: the largest column-group count a length field holds (R6, R133). -/
abbrev maxGroups : Nat := 65535

/-- `PAD_ALIGN` (R6, R171). -/
abbrev padAlign : Nat := 64

/-- `MAX_PAYLOAD` (R6, R174). -/
abbrev maxPayload : Nat := 8192

/-- `CHUNK_SIZE` in bytes: 64 for USB, 16 for BLE (R6, R176). -/
def chunkBytes : ChunkSize → Nat
  | .usb => 64
  | .ble => 16

/-- `MAGIC_LEN`, the length of `MAGIC` (R6). -/
abbrev magicLen (p : Params) : Nat := p.magic.length

/-- `HDR_LEN = MAGIC_LEN + 59` (R6, R55). -/
abbrev hdrLen (p : Params) : Nat := magicLen p + 59

/-- The address of `BRIGHTNESS` (R32, R55). -/
abbrev offBrightness (p : Params) : Nat := magicLen p

/-- The address of `BLINK` (R32, R55). -/
abbrev offBlink (p : Params) : Nat := magicLen p + 1

/-- The address of `BORDER` (R32, R55). -/
abbrev offBorder (p : Params) : Nat := magicLen p + 2

/-- The address of `SPDMODE[i]` (R32, R55). -/
abbrev offSpdMode (p : Params) (i : Nat) : Nat := magicLen p + 3 + i

/-- The address of the high byte of `LEN[i]`; the low byte stands at the next address (R52, R55). -/
abbrev offLen (p : Params) (i : Nat) : Nat := magicLen p + 11 + 2 * i

/-- The address of the first reserved region, 6 bytes (R55, R56). -/
abbrev offReserved1 (p : Params) : Nat := magicLen p + 27

/-- The address of `TS_YEAR`; month, day, hour, minute and second follow (R32, R55). -/
abbrev offTimestamp (p : Params) : Nat := magicLen p + 33

/-- The address of the second reserved region, 20 bytes (R55, R56). -/
abbrev offReserved2 (p : Params) : Nat := magicLen p + 39

/-- The value R6 takes for `MAGIC`: ASCII "wang" then NUL. PRESUMED by the spec itself (D1, G1: from general knowledge); the
model keeps `MAGIC` a parameter (log entry 4). -/
def magicBytes : List Byte := [0x77, 0x61, 0x6E, 0x67, 0x00]

/-- The parameter values R6 decides on: `MAGIC` (D1) and `RAW_CAPACITY` = 8192 (D6). -/
def decidedParams : Params where
  magic := magicBytes
  rawCapacity := 8192
  hdrFits := by decide
  capFits := by decide

end Sys2Proof.Machine
end

