-- ==== Sys2Proof/Machine/State.lean ====
section
/-!
DEFINITION. The state of the machine as plain data: every register of 10_state.md, the payload buffer, the RTC input port, and
two fields of the model's own (the parameters, and the host's remaining actions); the state after reset (R40, R230).
-/

namespace Sys2Proof.Machine

/-- Register `ST` (R23). -/
inductive St where
  /-- 0: no payload; after reset. -/
  | idle
  /-- 1: a payload is open; INIT has run. -/
  | building
  /-- 2: the payload is padded and readable; FINAL has run. -/
  | finalized
  /-- 3: a fatal error was latched. -/
  | faulted
deriving DecidableEq, Repr

/-- Register `LAST`, the status of the most recent command (R27). -/
inductive Last where
  /-- 0: the command completed. -/
  | ok
  /-- 1: a SETPIX was out of bounds and changed nothing. -/
  | oob
  /-- 2: this command raised a fault. -/
  | fault
  /-- 3: the block was FAULTED and the command was discarded. -/
  | ignored
deriving DecidableEq, Repr

/-- The fault causes of R200, in the order of their codes 0 to 5, which is their priority (R206). -/
inductive Cause where
  | illegal
  | sequence
  | slotsFull
  | lenOverflow
  | capacity
  | size
deriving DecidableEq, Repr

/-- The value the RTC input port presents (R33). -/
structure Rtc where
  year : BitVec 16
  month : BitVec 8
  day : BitVec 8
  hour : BitVec 8
  minute : BitVec 8
  second : BitVec 8
deriving DecidableEq, Repr

/-- One action of the host on the PEF (R20, R42). The reads are no actions: they change no state (Sys2Proof/Machine/Ports.lean). -/
inductive HostAct where
  /-- Issue a command word while the RTC port presents a time (R33, R34). -/
  | command (w : Word) (rtc : Rtc)
  /-- Assert reset (R230); `contents` is the draw of what `BUF` holds afterwards (R40; log entry 7). -/
  | reset (contents : List Byte)
deriving DecidableEq, Repr

/-- The bytes of `BUF` that differ from what an unlisted address reads as, by rising address (R31). -/
abbrev Memory := List Host.Cell

/-- The state of the PEF and of its surroundings. -/
structure State where
  /-- The MODEL's own: the parameters this PEF is built with (R6; log entry 4). No step changes them. -/
  params : Params
  /-- `ST` (R23). -/
  st : St
  /-- `COUNT` (R24). -/
  count : BitVec 4
  /-- `RAW_LEN` (R25). -/
  rawLen : BitVec 32
  /-- `PAD_LEN` (R26). -/
  padLen : BitVec 32
  /-- `LAST` (R27). -/
  last : Last
  /-- `FAULT` (R28). -/
  fault : BitVec 6
  /-- `FAULT_CMD` (R29). -/
  faultCmd : BitVec 32
  /-- `VIEW_BASE` (R30). -/
  viewBase : BitVec 32
  /-- `VIEW_GROUPS` (R30). -/
  viewGroups : BitVec 16
  /-- `BUF` (R31), with the header fields as aliases onto it (R32). -/
  buf : Memory
  /-- The RTC input port: the value it presents to the command that runs now (R33; log entry 3). -/
  rtc : Rtc
  /-- The MODEL's own: what the host will do, oldest first (log entry 1). The PEF has no queue (R34). -/
  host : List HostAct
deriving DecidableEq, Repr

/-- Why the machine stops. The PEF's own fault causes (R200) are no stops: fault entry is a next state (R203). -/
inductive Fault where
  /-- Raised by SETPIX when the byte address of an in-bounds pixel lies outside `BUF` (R31, R50). No state reached from reset
  raises it (R154). SAFE: the model stops where nothing the spec describes goes on (log entry 10). -/
  | outsideBuf (address : Nat)
deriving DecidableEq, Repr

/-- Why the model gives no meaning. -/
inductive Refusal where
  /-- Raised by `exec` alone, for an instruction that has no meaning yet; no instruction is left in this case. SAFE. -/
  | notModelled (mnemonic : String)
deriving DecidableEq, Repr

/-- The port value at power-on. DESIGN CHOICE (log entry 3): a port is no register and the spec gives it no reset value; every
command brings its own value. -/
def Rtc.zero : Rtc := ⟨0, 0, 0, 0, 0, 0⟩

/-- The machine right after reset (R40, R230), with the parameter values R6 decides on. DESIGN CHOICE: `BUF` lists nothing
(R40 lets a model pick any contents; log entry 6), and the host has not issued anything (R231; log entry 2). -/
def State.reset : State where
  params := decidedParams
  st := .idle
  count := 0
  rawLen := 0
  padLen := 0
  last := .ok
  fault := 0
  faultCmd := 0
  viewBase := 0
  viewGroups := 0
  buf := []
  rtc := Rtc.zero
  host := []

end Sys2Proof.Machine
end

