-- ==== Sys2Proof/Machine/Flags.lean ====
section
/-!
DEFINITION. The numeric codes of the status registers (R23, R27, R200) and the composition of STATUS (R36). The PEF has no
arithmetic flags (R39).
-/

namespace Sys2Proof.Machine

/-- The encoding of `ST` (R23). -/
def stCode : St → BitVec 2
  | .idle => 0
  | .building => 1
  | .finalized => 2
  | .faulted => 3

/-- The encoding of `LAST` (R27). -/
def lastCode : Last → BitVec 2
  | .ok => 0
  | .oob => 1
  | .fault => 2
  | .ignored => 3

/-- The code of a fault cause (R200). -/
def causeCode : Cause → Nat
  | .illegal => 0
  | .sequence => 1
  | .slotsFull => 2
  | .lenOverflow => 3
  | .capacity => 4
  | .size => 5

/-- `1 << code`: the bit of `FAULT` a cause sets (R28, R200). -/
def causeBit (c : Cause) : BitVec 6 := (1 : BitVec 6) <<< causeCode c

/-- `STATUS = ST | (COUNT << 4) | (LAST << 8) | (FAULT << 16)` (R36). -/
def State.status (s : State) : Word :=
  (stCode s.st).setWidth 32 ||| (s.count.setWidth 32 <<< 4) ||| ((lastCode s.last).setWidth 32 <<< 8)
    ||| (s.fault.setWidth 32 <<< 16)

end Sys2Proof.Machine
end

