-- ==== Sys2Proof/Machine/Operands.lean ====
section
/-!
DEFINITION. The values command operands and header fields carry (R88 to R94), the arithmetic of lengths and padding (R9, R171)
and pixel addressing (R53, R58, R151). All arithmetic is on naturals; a value is narrowed only where a rule slices it (R9).
-/

namespace Sys2Proof.Machine

/-! ### Brightness, speed and mode codes -/

/-- The four brightness values; the names are the spec's own (R91). -/
inductive Brightness where
  | brt0
  | brt1
  | brt2
  | brt3
deriving DecidableEq, Repr

/-- The byte code of a brightness value, `k << 4` (R91). -/
def brightnessEncode : Brightness → Byte
  | .brt0 => 0x00
  | .brt1 => 0x10
  | .brt2 => 0x20
  | .brt3 => 0x30

/-- `brightness_decode`; `none` is INVALID (R91). -/
def brightnessDecode (b : Byte) : Option Brightness :=
  if b = 0x00 then some .brt0
  else if b = 0x10 then some .brt1
  else if b = 0x20 then some .brt2
  else if b = 0x30 then some .brt3
  else none

/-- `speed_decode`; `none` is INVALID (R92). -/
def speedDecode (b : Byte) : Option (BitVec 3) :=
  if b.toNat ≤ 7 then some (BitVec.ofNat 3 b.toNat) else none

/-- The nine modes, in the source's order (R93). The names carry no display behaviour (R5). -/
inductive Mode where
  | left
  | right
  | up
  | down
  | center
  | fast
  | drop
  | curtain
  | laser
deriving DecidableEq, Repr

/-- The code of a mode: its position in the list (R93, D4). -/
def modeCode : Mode → BitVec 4
  | .left => 0
  | .right => 1
  | .up => 2
  | .down => 3
  | .center => 4
  | .fast => 5
  | .drop => 6
  | .curtain => 7
  | .laser => 8

/-- The mode of a code; codes 9 to 15 are invalid (R93). -/
def modeDecode (c : BitVec 4) : Option Mode :=
  match c.toNat with
  | 0 => some .left
  | 1 => some .right
  | 2 => some .up
  | 3 => some .down
  | 4 => some .center
  | 5 => some .fast
  | 6 => some .drop
  | 7 => some .curtain
  | 8 => some .laser
  | _ => none

/-- A style, the tuple (blink, border, speed, mode) of R90. The PEF keeps no style register. -/
structure Style where
  blink : Bool
  border : Bool
  speed : BitVec 3
  mode : BitVec 4
deriving DecidableEq, Repr

/-- `spdmode(speed, mode) = (speed << 4) | mode` (R69, R94). -/
def spdMode (speed : BitVec 3) (mode : BitVec 4) : Byte :=
  (speed.setWidth 8 <<< 4) ||| mode.setWidth 8

/-- `(b & (~(1 << i) & 0xFF)) | (v << i)`: bit `i` of a bitmask byte becomes `v` (R69, R137). -/
def setBit (b : Byte) (i : Nat) (v : Bool) : Byte :=
  (b &&& ~~~((1 : Byte) <<< i)) ||| ((if v then 1 else 0 : Byte) <<< i)

/-! ### Lengths and padding -/

/-- `roundup(a, b) = ((a + b - 1) div b) * b` (R9). -/
def roundUp (a b : Nat) : Nat := (a + b - 1) / b * b

/-- `pad_len(r) = roundup(r, PAD_ALIGN)` (R171). -/
def padLength (r : Nat) : Nat := roundUp r padAlign

/-- The bytes of `n` column groups, `ROWS * n` (R25, R88). -/
abbrev groupBytes (n : Nat) : Nat := rowsPerGroup * n

/-! ### Pixels -/

/-- `pix_addr(x, y) = VIEW_BASE + (x div 8) * 11 + y` (R151). -/
abbrev pixAddr (base x y : Nat) : Nat := base + x / groupWidth * rowsPerGroup + y

/-- `pix_mask(x) = 0x80 >> (x mod 8)` (R53, R151). -/
def pixMask (x : Nat) : Byte := (0x80 : Byte) >>> (x % groupWidth)

/-- The byte with the pixel's bit set to `v`: `old | m`, or `old & (~m & 0xFF)` (R152). -/
def pixWrite (old : Byte) (x : Nat) (v : Bool) : Byte :=
  if v then old ||| pixMask x else old &&& ~~~(pixMask x)

/-- The pixel lies inside a view of `groups` column groups: `y < ROWS` and `x < GROUP_W * VIEW_GROUPS` (R152, R153). -/
def pixInBounds (groups x y : Nat) : Bool :=
  !(decide (rowsPerGroup ≤ y) || decide (groupWidth * groups ≤ x))

end Sys2Proof.Machine
end

