-- ==== Sys2Proof/Machine/Ops.lean ====
section
/-!
DEFINITION. The named operations over the payload buffer and the registers: reading and writing a byte (R10, R51), the status of
a command (R10, R27), fault entry (R203), the discarding of a command in FAULTED (R204), reset (R230), the legal-state table
(R201) and the dispatch every command runs through (R202).
-/

namespace Sys2Proof.Machine

/-! ### The payload buffer -/

/-- What an unlisted byte of `BUF` reads as. DESIGN CHOICE (log entry 6): R40 lets a model pick any contents after reset. -/
def Memory.unlisted : Byte := 0x00

/-- `MemRead(a, 1)` (R10). -/
def Memory.read : Memory → Nat → Byte
  | [], _ => Memory.unlisted
  | (k, b) :: m, a => if k = a then b else Memory.read m a

/-- The buffer with no entry at `a`, which then reads as an unlisted byte. -/
def Memory.erase (m : Memory) (a : Nat) : Memory := m.filter fun c => c.1 != a

/-- The entry `(a, v)` put before the first entry of a higher address. -/
def Memory.insert : Memory → Nat → Byte → Memory
  | [], a, v => [(a, v)]
  | (k, b) :: m, a, v => if a < k then (a, v) :: (k, b) :: m else (k, b) :: Memory.insert m a v

/-- `MemWrite(a, 1, v)` (R10), keeping the canonical form. -/
def Memory.write (m : Memory) (a : Nat) (v : Byte) : Memory :=
  if v = Memory.unlisted then m.erase a else (m.erase a).insert a v

/-- Successive single-byte writes from `a` upwards (R51). -/
def Memory.writeBytes : Memory → Nat → List Byte → Memory
  | m, _, [] => m
  | m, a, v :: vs => Memory.writeBytes (m.write a v) (a + 1) vs

/-- `for a in lo .. lo+n-1: MemWrite(a, 1, 0x00)` (R112, R137). -/
def Memory.zeroRange (m : Memory) (lo n : Nat) : Memory :=
  m.filter fun c => !(decide (lo ≤ c.1) && decide (c.1 < lo + n))

/-- The buffer that holds the given bytes from address `a` on. -/
def Memory.ofBytesFrom : Nat → List Byte → Memory
  | _, [] => []
  | a, b :: bs => if b = Memory.unlisted then Memory.ofBytesFrom (a + 1) bs else (a, b) :: Memory.ofBytesFrom (a + 1) bs

/-- The buffer of `cap` bytes that holds the given bytes from address 0 on (R31, R40). -/
def Memory.ofBytes (cap : Nat) (bs : List Byte) : Memory := Memory.ofBytesFrom 0 (bs.take cap)

/-- Addresses rise strictly from `lo` and no entry equals an unlisted byte. -/
def Memory.risingFrom : Nat → Memory → Bool
  | _, [] => true
  | lo, (a, b) :: m => decide (lo ≤ a) && (b != Memory.unlisted && Memory.risingFrom (a + 1) m)

/-- The canonical form of a buffer of `cap` bytes: addresses strictly rising and below `cap` (R31), no entry equal to what an
unlisted address reads as. -/
def Memory.wf (cap : Nat) (m : Memory) : Bool :=
  Memory.risingFrom 0 m && m.all fun c => decide (c.1 < cap)

/-! ### Registers -/

/-- `status(s)`: `LAST <- s` (R10, R27). -/
def State.setLast (s : State) (l : Last) : State := { s with last := l }

/-- The state with another payload buffer. -/
def State.setBuf (s : State) (m : Memory) : State := { s with buf := m }

/-- The state in which the RTC port presents `t` (R33). -/
def State.setRtc (s : State) (t : Rtc) : State := { s with rtc := t }

/-- The state in which the host still has `l` to do. -/
def State.setHost (s : State) (l : List HostAct) : State := { s with host := l }

/-- `MemRead(a, 1)` on `BUF` (R10). -/
def State.load (s : State) (a : Nat) : Byte := s.buf.read a

/-! ### Faults and reset -/

/-- Fault entry, `raise Fault(code, w)` (R203): these four writes and nothing else. There is no return from a fault but reset
(R207). -/
def State.raise (s : State) (c : Cause) (w : Word) : State :=
  { s with fault := s.fault ||| causeBit c, faultCmd := w, st := .faulted, last := .fault }

/-- A command in FAULTED is discarded: only `LAST <- IGNORED` (R204). -/
def State.ignore (s : State) : State := s.setLast .ignored

/-- The host asserts reset (R230): every register takes its value of R40, and `BUF` holds whatever the draw says. The parameters
are the machine's own; the RTC port and the host's remaining actions are outside the PEF (log entries 3 and 7). -/
def State.assertReset (s : State) (contents : List Byte) : State :=
  { State.reset with
    params := s.params
    buf := Memory.ofBytes s.params.rawCapacity contents
    rtc := s.rtc
    host := s.host }

/-! ### Dispatch -/

/-- The legal states of each command (R201). FAULTED is handled before this table (R204). -/
def legalState : Instr → St → Bool
  | .nop, st => st == .idle || st == .building || st == .finalized
  | .init _, st => st == .idle || st == .finalized
  | .setbrt _, st => st == .building
  | .addmsg .., st => st == .building
  | .setpix .., st => st == .building
  | .final, st => st == .building

/-- The dispatch of R202 around a command's own effect: FAULTED ignores it (R204), an illegal encoding raises ILLEGAL (R89), a
wrong state raises SEQUENCE (R201); the order is the priority of R206. -/
def runCommand (i : Instr) (body : State → Host.Outcome State Fault Refusal) (s : State) :
    Host.Outcome State Fault Refusal :=
  if s.st = .faulted then .next s.ignore
  else if encodingOk (encode i) = false then .next (s.raise .illegal (encode i))
  else if legalState i s.st = false then .next (s.raise .sequence (encode i))
  else body s

/-- The dispatch of R202 for a word that is no command at all: ignored in FAULTED, otherwise ILLEGAL (R87, R89, R202). -/
def rejectWord (w : Word) (s : State) : State :=
  if s.st = .faulted then s.ignore else s.raise .illegal w

end Sys2Proof.Machine
end

