-- ==== Sys2Proof/Machine/Finalize.lean ====
section
/-!
DEFINITION. The command FINAL (43_finalize_readout.md): padding, the size limit, sealing for readout.
-/

namespace Sys2Proof.Machine

/-- The effect of FINAL once the size check has passed (R172). It writes no byte of `BUF`: padding is not stored (R173). -/
def sealPayload (s : State) : State :=
  { s with padLen := BitVec.ofNat 32 (padLength s.rawLen.toNat), st := .finalized, last := .ok }

/-- FINAL (R172): SIZE if the padded length exceeds 8192 (R174), otherwise the payload is padded and sealed. -/
def execFinal (s : State) : Host.Outcome State Fault Refusal :=
  runCommand .final (fun s =>
    if maxPayload < padLength s.rawLen.toNat then .next (s.raise .size (encode .final))
    else .next (sealPayload s)) s

end Sys2Proof.Machine
end

