-- ==== Sys2Proof/Machine/Message.lean ====
section
/-!
DEFINITION. The message append command ADDMSG (41_message_append.md).
-/

namespace Sys2Proof.Machine

/-- The header writes of ADDMSG for slot `i`: blink bit, border bit, packed speed/mode byte, big-endian length (R137). -/
def slotHeader (p : Params) (i : Nat) (st : Style) (ngrp : BitVec 19) (m : Memory) : Memory :=
  let blinked := m.write (offBlink p) (setBit (m.read (offBlink p)) i st.blink)
  let bordered := blinked.write (offBorder p) (setBit (blinked.read (offBorder p)) i st.border)
  let packed := bordered.write (offSpdMode p i) (spdMode st.speed st.mode)
  (packed.write (offLen p i) (ngrp.extractLsb' 8 8)).write (offLen p i + 1) (ngrp.extractLsb' 0 8)

/-- The effect of ADDMSG once every check has passed (R131, R137, R138). The new slot's index is `COUNT` before the command. -/
def appendSlot (st : Style) (ngrp : BitVec 19) (s : State) : State :=
  { s with
    buf := (slotHeader s.params s.count.toNat st ngrp s.buf).zeroRange s.rawLen.toNat (groupBytes ngrp.toNat)
    viewBase := s.rawLen
    viewGroups := ngrp.extractLsb' 0 16
    rawLen := BitVec.ofNat 32 (s.rawLen.toNat + groupBytes ngrp.toNat)
    count := BitVec.ofNat 4 (s.count.toNat + 1)
    last := .ok }

/-- ADDMSG (R130): the checks SLOTS_FULL (R132), LEN_OVERFLOW (R133) and CAPACITY (R134) in this order, all before any write
(R135), then the append (R137). -/
def execAddmsg (blk brd : Bool) (spd : BitVec 3) (mode : BitVec 4) (ngrp : BitVec 19) (s : State) :
    Host.Outcome State Fault Refusal :=
  runCommand (.addmsg blk brd spd mode ngrp) (fun s =>
    if s.count.toNat = maxSlots then .next (s.raise .slotsFull (encode (.addmsg blk brd spd mode ngrp)))
    else if maxGroups < ngrp.toNat then .next (s.raise .lenOverflow (encode (.addmsg blk brd spd mode ngrp)))
    else if s.params.rawCapacity < s.rawLen.toNat + groupBytes ngrp.toNat then
      .next (s.raise .capacity (encode (.addmsg blk brd spd mode ngrp)))
    else .next (appendSlot ⟨blk, brd, spd, mode⟩ ngrp s)) s

end Sys2Proof.Machine
end

