-- ==== Sys2Proof/Machine/Pixel.lean ====
section
/-!
DEFINITION. The pixel write command SETPIX (42_pixel_write.md), which has no slot operand: it reaches the current view only (R150).
-/

namespace Sys2Proof.Machine

/-- The byte address of pixel (x, y) of the current view (R151). -/
abbrev viewPixAddr (s : State) (x : BitVec 23) (y : BitVec 4) : Nat :=
  pixAddr s.viewBase.toNat x.toNat y.toNat

/-- The read-modify-write of an in-bounds SETPIX at byte address `a` (R152). -/
def writePixel (a : Nat) (x : BitVec 23) (v : Bool) (s : State) : State :=
  (s.setBuf (s.buf.write a (pixWrite (s.load a) x.toNat v))).setLast .ok

/-- SETPIX (R152): out of bounds writes no byte and `LAST <- OOB` (R153); in bounds the pixel's bit becomes `v`. An address
outside `BUF` (R50), which no state reached from reset gives (R154), is the model's stop `outsideBuf` (log entry 10). -/
def execSetpix (v : Bool) (y : BitVec 4) (x : BitVec 23) (s : State) : Host.Outcome State Fault Refusal :=
  runCommand (.setpix v y x) (fun s =>
    if pixInBounds s.viewGroups.toNat x.toNat y.toNat = false then .next (s.setLast .oob)
    else if viewPixAddr s x y < s.params.rawCapacity then .next (writePixel (viewPixAddr s x y) x v s)
    else .fault (.outsideBuf (viewPixAddr s x y))) s

end Sys2Proof.Machine
end

