-- ==== Sys2Proof/Machine/Setup.lean ====
section
/-!
DEFINITION. The payload setup commands NOP, INIT and SETBRT (40_payload_setup.md).
-/

namespace Sys2Proof.Machine

/-- NOP (R110): writes `LAST <- OK` and nothing else. -/
def execNop (s : State) : Host.Outcome State Fault Refusal :=
  runCommand .nop (fun s => .next (s.setLast .ok)) s

/-- The six timestamp bytes INIT writes: the year mod 100, the rest unchanged, raw binary (R57, R112, R113). -/
def timestampBytes (t : Rtc) : List Byte :=
  [BitVec.ofNat 8 (t.year.toNat % 100), t.month, t.day, t.hour, t.minute, t.second]

/-- The header writes of INIT, in the order of its pseudocode (R112). -/
def initHeader (p : Params) (brt : Byte) (t : Rtc) (m : Memory) : Memory :=
  Memory.writeBytes
    (((m.zeroRange 0 (hdrLen p)).writeBytes 0 p.magic).write (offBrightness p) brt)
    (offTimestamp p) (timestampBytes t)

/-- The effect of INIT once the dispatch has passed (R112, R114). -/
def openPayload (brt : Byte) (s : State) : State :=
  { s with
    buf := initHeader s.params brt s.rtc s.buf
    count := 0
    rawLen := BitVec.ofNat 32 (hdrLen s.params)
    padLen := 0
    viewBase := BitVec.ofNat 32 (hdrLen s.params)
    viewGroups := 0
    st := .building
    last := .ok }

/-- INIT (R112): opens a new empty payload, with the brightness of its operand and the time the RTC port presents. -/
def execInit (brt : BitVec 8) (s : State) : Host.Outcome State Fault Refusal :=
  runCommand (.init brt) (fun s => .next (openPayload brt s)) s

/-- The effect of SETBRT once the dispatch has passed (R116). -/
def overwriteBrightness (brt : Byte) (s : State) : State :=
  (s.setBuf (s.buf.write (offBrightness s.params) brt)).setLast .ok

/-- SETBRT (R116): overwrites the global brightness byte. -/
def execSetbrt (brt : BitVec 8) (s : State) : Host.Outcome State Fault Refusal :=
  runCommand (.setbrt brt) (fun s => .next (overwriteBrightness brt s)) s

end Sys2Proof.Machine
end

