-- ==== Sys2Proof/Machine/Dispatch.lean ====
section
/-!
DEFINITION. What each command does (R202): one arm per constructor of Instr, each a direct call of its meaning.
-/

namespace Sys2Proof.Machine

/-- The case split of R202. The checks before it stand in the dispatch each meaning runs through (`runCommand`). -/
def exec (i : Instr) (s : State) : Host.Outcome State Fault Refusal :=
  match i with
  | .nop => Sys2Proof.Machine.execNop s
  | .init brt => Sys2Proof.Machine.execInit brt s
  | .setbrt brt => Sys2Proof.Machine.execSetbrt brt s
  | .addmsg blk brd spd mode ngrp => Sys2Proof.Machine.execAddmsg blk brd spd mode ngrp s
  | .setpix v y x => Sys2Proof.Machine.execSetpix v y x s
  | .final => Sys2Proof.Machine.execFinal s

end Sys2Proof.Machine
end

