-- ==== Sys2Proof/Machine/Command.lean ====
section
/-!
DEFINITION. The command port and the reset input (R34, R202, R230): what one action of the host does to the PEF.
-/

namespace Sys2Proof.Machine

/-- `step(w)` of R202: the word is decoded and executed; a word that is no command is ILLEGAL (or ignored in FAULTED). -/
def issueWord (w : Word) (s : State) : Host.Outcome State Fault Refusal :=
  match decode w with
  | .ok i => exec i s
  | .error _ => .next (rejectWord w s)

/-- One action of the host (R20): a command word with the RTC value presented while it executes (R33), or reset (R230). -/
def hostAction (a : HostAct) (s : State) : Host.Outcome State Fault Refusal :=
  match a with
  | .command w t => issueWord w (s.setRtc t)
  | .reset contents => .next (s.assertReset contents)

/-- The host puts a command before everything else it has to do; the RTC port keeps presenting the time it presents now. -/
def offerCommand (s : State) (w : Word) : State := s.setHost (.command w s.rtc :: s.host)

end Sys2Proof.Machine
end

