-- ==== Sys2Proof/Machine/Step.lean ====
section
/-!
DEFINITION. One step of the machine: the host's next action (R20). With no action left the PEF holds its state (R216, R231).
-/

namespace Sys2Proof.Machine

/-- One step. One command is one atomic step (R20, R62); reset never lands inside one (R230). -/
def step (s : State) : Host.Outcome State Fault Refusal :=
  match s.host with
  | [] => .next s
  | a :: rest => hostAction a (s.setHost rest)

/-- The state in which the host issues the given word next (log entry 2): the PEF fetches nothing, its words come from the
command port (R34, R66). -/
def State.withFetchWord (s : State) (nbits w : Nat) : State := offerCommand s (BitVec.ofNat 32 (w % 2 ^ nbits))

end Sys2Proof.Machine
end

