-- ==== Sys2Proof/Machine/Header.lean ====
section
/-!
DEFINITION. The header fields as aliases onto the payload buffer (R32, R52), the slot regions (R54), and the reference header
decoder of R95, which the PEF never executes.
-/

namespace Sys2Proof.Machine

/-! ### Aliases -/

/-- `BRIGHTNESS` (R32). -/
def State.brightnessByte (s : State) : Byte := s.load (offBrightness s.params)

/-- `BLINK` (R32). -/
def State.blinkByte (s : State) : Byte := s.load (offBlink s.params)

/-- `BORDER` (R32). -/
def State.borderByte (s : State) : Byte := s.load (offBorder s.params)

/-- `SPDMODE[i]` (R32). -/
def State.spdModeByte (s : State) (i : Nat) : Byte := s.load (offSpdMode s.params i)

/-- `LEN[i]`, big-endian (R32, R52). -/
def State.slotLen (s : State) (i : Nat) : Nat :=
  (s.load (offLen s.params i)).toNat * 256 + (s.load (offLen s.params i + 1)).toNat

/-- `TS_YEAR` to `TS_SECOND` (R32, R55). -/
def State.timestamp (s : State) : List Byte := (List.range 6).map fun j => s.load (offTimestamp s.params + j)

/-- The header, `BUF[0 .. HDR_LEN-1]` (R55). -/
def State.headerBytes (s : State) : List Byte := (List.range (hdrLen s.params)).map s.load

/-! ### Slot regions -/

/-- `LEN[0] + ... + LEN[i-1]` (R54). -/
def State.lenSum (s : State) : Nat → Nat
  | 0 => 0
  | i + 1 => s.lenSum i + s.slotLen i

/-- `base(i)`, the address of slot `i`'s region (R54). -/
def State.slotBase (s : State) (i : Nat) : Nat := hdrLen s.params + groupBytes (s.lenSum i)

/-- Pixel (x, y) of a region at `base` is on (R58). -/
def State.pixelOn (s : State) (base x y : Nat) : Bool := s.load (pixAddr base x y) &&& pixMask x != 0

/-! ### The reference decoder -/

/-- What R95 reads of one slot. -/
structure SlotView where
  blink : Bool
  border : Bool
  /-- `none` is INVALID (R92). -/
  speed : Option (BitVec 3)
  /-- Valid iff at most 8 (R93, R95). -/
  mode : BitVec 4
  len : Nat
deriving DecidableEq, Repr

/-- What R95 reads of a header. The reserved bytes are not read (R56). -/
structure HeaderView where
  magicOk : Bool
  /-- `none` is INVALID (R91). -/
  brightness : Option Brightness
  slots : List SlotView
  timestamp : List Byte
deriving DecidableEq, Repr

/-- `header_decode` for one slot (R95). -/
def slotDecode (p : Params) (h : List Byte) (i : Nat) : SlotView where
  blink := (h.getD (offBlink p) 0).getLsbD i
  border := (h.getD (offBorder p) 0).getLsbD i
  speed := speedDecode (h.getD (offSpdMode p i) 0 >>> 4)
  mode := (h.getD (offSpdMode p i) 0).extractLsb' 0 4
  len := (h.getD (offLen p i) 0).toNat * 256 + (h.getD (offLen p i + 1) 0).toNat

/-- `header_decode` of the bytes `h[0 .. HDR_LEN-1]` (R95). -/
def headerDecode (p : Params) (h : List Byte) : HeaderView where
  magicOk := h.take (magicLen p) == p.magic
  brightness := brightnessDecode (h.getD (offBrightness p) 0)
  slots := (List.range maxSlots).map (slotDecode p h)
  timestamp := (List.range 6).map fun j => h.getD (offTimestamp p + j) 0

end Sys2Proof.Machine
end

