-- ==== Sys2Proof/Machine/Assembler.lean ====
section
/-!
DEFINITION. The assembler syntax of R97 and the pseudo-instructions of R98. Neither is part of the machine (D28): they say which
words a host means by a line of text.
-/

namespace Sys2Proof.Machine

/-! ### Lines and their words -/

/-- One line of assembly with its operands as the numbers written (R97). -/
inductive AsmLine where
  | nop
  | init (brt : Nat)
  | setbrt (brt : Nat)
  | addmsg (groups speed mode : Nat) (blink border : Bool)
  /-- `v` may be omitted (R97). -/
  | setpix (x y : Nat) (v : Option Nat)
  | final
deriving DecidableEq, Repr

/-- A number that fits a field of `n` bits; the assembler refuses any other (R97). -/
def fitField (n k : Nat) : Option (BitVec n) :=
  if k < 2 ^ n then some (BitVec.ofNat n k) else none

/-- The value of `v`: 0 or 1, and 1 where it is omitted (R97). -/
def pixelValue : Option Nat → Option Bool
  | none => some true
  | some 0 => some false
  | some 1 => some true
  | some _ => none

/-- The command of a line; `none` is a refusal. Values that fit their field but fault or are out of bounds when run are accepted
(R97). -/
def assembleInstr : AsmLine → Option Instr
  | .nop => some .nop
  | .init brt => (fitField 8 brt).map .init
  | .setbrt brt => (fitField 8 brt).map .setbrt
  | .addmsg groups speed mode blink border =>
    match fitField 19 groups, fitField 3 speed, fitField 4 mode with
    | some n, some s, some m => some (.addmsg blink border s m n)
    | _, _, _ => none
  | .setpix x y v =>
    match fitField 23 x, fitField 4 y, pixelValue v with
    | some x, some y, some v => some (.setpix v y x)
    | _, _, _ => none
  | .final => some .final

/-- The word of a line (R97, R99). -/
def assemble (l : AsmLine) : Option Word := (assembleInstr l).map encode

/-! ### Pseudo-instructions -/

/-- `CLRPIX x, y` is `SETPIX x, y, 0` (R98). -/
def clrpix (x y : Nat) : AsmLine := .setpix x y (some 0)

/-- What ADDMSGD draws: the exclusive right edge of the bounding box and the pixels that are on, both from the host (R98, D30). -/
structure Drawable where
  rightEdge : Nat
  lit : List (Int × Int)
deriving DecidableEq, Repr

/-- `ceil(W / 8)` column groups (R98). -/
def drawableGroups (d : Drawable) : Nat := (d.rightEdge + 7) / groupWidth

/-- The SETPIX lines of an expansion: one for each pixel that is on with neither coordinate negative (R98). -/
def drawLines : List (Int × Int) → List AsmLine
  | [] => []
  | (x, y) :: ps =>
    if 0 ≤ x ∧ 0 ≤ y then .setpix x.toNat y.toNat (some 1) :: drawLines ps else drawLines ps

/-- `ADDMSGD style, D` (R98); off pixels are not issued, which R98 leaves to the host (log entry 16). -/
def addmsgd (st : Style) (d : Drawable) : List AsmLine :=
  .addmsg (drawableGroups d) st.speed.toNat st.mode.toNat st.blink st.border :: drawLines d.lit

/-! ### Text of a line -/

/-- White space between the parts of a line. -/
def isBlank (c : Char) : Bool := c == ' ' || c == '\t'

/-- The text before `;`, which starts a comment (R97). -/
def stripComment (cs : List Char) : List Char := cs.takeWhile (· != ';')

/-- The text with the blanks at its two ends taken off. -/
def trimBlanks (cs : List Char) : List Char := ((cs.dropWhile isBlank).reverse.dropWhile isBlank).reverse

/-- The value of a digit in base 10 or 16. -/
def digitValue (base : Nat) (c : Char) : Option Nat :=
  let v :=
    if 48 ≤ c.toNat ∧ c.toNat ≤ 57 then c.toNat - 48
    else if 97 ≤ c.toNat ∧ c.toNat ≤ 102 then c.toNat - 87
    else if 65 ≤ c.toNat ∧ c.toNat ≤ 70 then c.toNat - 55
    else base
  if v < base then some v else none

/-- The digits of a number read from the left, after the value `acc`. -/
def digitsValue (base : Nat) : Nat → List Char → Option Nat
  | acc, [] => some acc
  | acc, c :: cs =>
    match digitValue base c with
    | some d => digitsValue base (acc * base + d) cs
    | none => none

/-- A decimal or `0x` hexadecimal number (R97). -/
def parseNumber : List Char → Option Nat
  | [] => none
  | '0' :: 'x' :: c :: cs => digitsValue 16 0 (c :: cs)
  | c :: cs => digitsValue 10 0 (c :: cs)

/-- The names of the modes (R93, R97). -/
def modeNames : List (List Char × Mode) :=
  [ (['L', 'E', 'F', 'T'], .left), (['R', 'I', 'G', 'H', 'T'], .right), (['U', 'P'], .up), (['D', 'O', 'W', 'N'], .down),
    (['C', 'E', 'N', 'T', 'E', 'R'], .center), (['F', 'A', 'S', 'T'], .fast), (['D', 'R', 'O', 'P'], .drop),
    (['C', 'U', 'R', 'T', 'A', 'I', 'N'], .curtain), (['L', 'A', 'S', 'E', 'R'], .laser) ]

/-- A mode operand: a name or a number (R97). -/
def parseMode (cs : List Char) : Option Nat :=
  match modeNames.find? fun n => n.1 == cs with
  | some n => some (modeCode n.2).toNat
  | none => parseNumber cs

/-- The value of a keyword operand `key=value`. -/
def keywordValue (key cs : List Char) : Option (List Char) :=
  if cs.take (key.length + 1) == key ++ ['='] then some (cs.drop (key.length + 1)) else none

/-- The number of a keyword operand. -/
def keywordNumber (key cs : List Char) : Option Nat := (keywordValue key cs).bind parseNumber

/-- The operands `[, blink] [, border]`, in this order; omitted ones are 0 (R97). -/
def styleFlags : List (List Char) → Option (Bool × Bool)
  | [] => some (false, false)
  | [a] =>
    if a == ['b', 'l', 'i', 'n', 'k'] then some (true, false)
    else if a == ['b', 'o', 'r', 'd', 'e', 'r'] then some (false, true)
    else none
  | [a, b] =>
    if a == ['b', 'l', 'i', 'n', 'k'] && b == ['b', 'o', 'r', 'd', 'e', 'r'] then some (true, true) else none
  | _ => none

/-- The operands of a line, apart from each other by commas. -/
def operandTexts (cs : List Char) : List (List Char) :=
  if trimBlanks cs = [] then [] else (cs.splitOn ',').map trimBlanks

/-- The operands of `INIT` and `SETBRT`: `brt=`, with no default (R97). -/
def parseBrt : List (List Char) → Option Nat
  | [b] => keywordNumber ['b', 'r', 't'] b
  | _ => none

/-- The operands of `ADDMSG`: `groups=`, `speed=`, `mode=` in this order, with no default, and the two flags (R97). -/
def parseAddmsg : List (List Char) → Option AsmLine
  | g :: s :: m :: flags =>
    match keywordNumber ['g', 'r', 'o', 'u', 'p', 's'] g, keywordNumber ['s', 'p', 'e', 'e', 'd'] s,
      (keywordValue ['m', 'o', 'd', 'e'] m).bind parseMode, styleFlags flags with
    | some g, some s, some m, some f => some (.addmsg g s m f.1 f.2)
    | _, _, _, _ => none
  | _ => none

/-- The operands of `SETPIX`: x, y and an optional v, by position (R97). -/
def parseSetpix : List (List Char) → Option AsmLine
  | [x, y] =>
    match parseNumber x, parseNumber y with
    | some x, some y => some (.setpix x y none)
    | _, _ => none
  | [x, y, v] =>
    match parseNumber x, parseNumber y, parseNumber v with
    | some x, some y, some v => some (.setpix x y (some v))
    | _, _, _ => none
  | _ => none

/-- The operands of the pseudo-instruction `CLRPIX` (R98). -/
def parseClrpix : List (List Char) → Option AsmLine
  | [x, y] =>
    match parseNumber x, parseNumber y with
    | some x, some y => some (clrpix x y)
    | _, _ => none
  | _ => none

/-- The line with the given mnemonic and operands; `none` is a refusal (R97, R98). -/
def parseCommand (mnemonic : List Char) (ops : List (List Char)) : Option AsmLine :=
  if mnemonic = ['N', 'O', 'P'] then (if ops = [] then some .nop else none)
  else if mnemonic = ['I', 'N', 'I', 'T'] then (parseBrt ops).map .init
  else if mnemonic = ['S', 'E', 'T', 'B', 'R', 'T'] then (parseBrt ops).map .setbrt
  else if mnemonic = ['A', 'D', 'D', 'M', 'S', 'G'] then parseAddmsg ops
  else if mnemonic = ['S', 'E', 'T', 'P', 'I', 'X'] then parseSetpix ops
  else if mnemonic = ['C', 'L', 'R', 'P', 'I', 'X'] then parseClrpix ops
  else if mnemonic = ['F', 'I', 'N', 'A', 'L'] then (if ops = [] then some .final else none)
  else none

/-- The words of one line of text: none for a line that holds no command, one otherwise; `none` is a refusal (R97). -/
def assembleText (cs : List Char) : Option (List Word) :=
  let text := trimBlanks (stripComment cs)
  if text = [] then some []
  else
    match parseCommand (text.takeWhile fun c => !isBlank c) (operandTexts (text.dropWhile fun c => !isBlank c)) with
    | some l => (assemble l).map fun w => [w]
    | none => none

/-- The words of a program, one command per line (R97). -/
def assembleProgram : List (List Char) → Option (List Word)
  | [] => some []
  | l :: ls =>
    match assembleText l, assembleProgram ls with
    | some ws, some rest => some (ws ++ rest)
    | _, _ => none

end Sys2Proof.Machine
end

