-- ==== Sys2Proof/Machine/Ports.lean ====
section
/-!
DEFINITION. The three read ports of the PEF (R35 to R38, R60, R176). A read changes no state (R20, R62), so a port is a function of
the state; the host may read between any two of its actions.
-/

namespace Sys2Proof.Machine

/-- What a readout port answers: data, or the response `RD_ERR` (R37, R38). -/
inductive Readout (α : Type) where
  | data (v : α)
  | rdErr
deriving DecidableEq, Repr

/-- `RegRead(r)` (R35). -/
def regRead (s : State) (r : BitVec 2) : Word :=
  match r.toNat with
  | 0 => s.status
  | 1 => s.rawLen
  | 2 => s.padLen
  | _ => s.faultCmd

/-- `ByteRead(a)` (R60), with the virtual zeros of the padding (R173). -/
def byteRead (s : State) (a : Nat) : Readout Byte :=
  if s.st = .finalized ∧ a < s.padLen.toNat then
    if a < s.rawLen.toNat then .data (s.load a) else .data 0x00
  else if s.st = .building ∧ a < s.rawLen.toNat then .data (s.load a)
  else .rdErr

/-- Some bytes read one after the other: `RD_ERR` if one of them is. -/
def collectReadouts : List (Readout Byte) → Readout (List Byte)
  | [] => .data []
  | .rdErr :: _ => .rdErr
  | .data b :: rs =>
    match collectReadouts rs with
    | .data bs => .data (b :: bs)
    | .rdErr => .rdErr

/-- `ChunkRead(k)` of a stream whose `CHUNK_SIZE` is `c` (R176): the bytes only, with no transport framing (R178). -/
def chunkRead (c : ChunkSize) (s : State) (k : Nat) : Readout (List Byte) :=
  if s.st = .finalized ∧ (k + 1) * chunkBytes c ≤ s.padLen.toNat then
    collectReadouts ((List.range (chunkBytes c)).map fun j => byteRead s (k * chunkBytes c + j))
  else .rdErr

/-- How many chunks the padded payload has: `PAD_LEN / CHUNK_SIZE` (R176). -/
def chunkCount (c : ChunkSize) (s : State) : Nat := s.padLen.toNat / chunkBytes c

end Sys2Proof.Machine
end

