-- ==== Sys2Proof/Machine/HostSide.lean ====
section
/-!
DEFINITION. What the spec says of the host beside its commands: the default style and brightness, whose values are OPEN (R96,
R114), the failure of a drawing (R98), and the chunk stream a transport is handed (R42, R177).
-/

namespace Sys2Proof.Machine

/-- The host's default style: no blink, no border, `DEFAULT_SPEED_CODE` (OPEN, an argument), left-scroll (R96). -/
def hostDefaultStyle (defaultSpeedCode : BitVec 3) : Style := ⟨false, false, defaultSpeedCode, modeCode .left⟩

/-- A host that wants a default brightness passes `DEFAULT_BRIGHTNESS` (OPEN, an argument) as BRT (R114). -/
def hostDefaultInit (defaultBrightness : Brightness) : Instr := .init (brightnessEncode defaultBrightness)

/-- The host treats a payload as failed when a SETPIX of an ADDMSGD expansion ended with `LAST = OOB` (R98). -/
def drawingFailed (statuses : List Last) : Bool := statuses.contains .oob

/-- Some readouts one after the other: `RD_ERR` if one of them is. -/
def collectChunks : List (Readout (List Byte)) → Readout (List (List Byte))
  | [] => .data []
  | .rdErr :: _ => .rdErr
  | .data b :: rs =>
    match collectChunks rs with
    | .data bs => .data (b :: bs)
    | .rdErr => .rdErr

/-- The chunks a transport sends: indices 0, 1, 2 and so on, each exactly once, in ascending order (R177), of a FINALIZED payload
only (R42, R235). -/
def chunkStream (c : ChunkSize) (s : State) : Readout (List (List Byte)) :=
  if s.st = .finalized then collectChunks ((List.range (chunkCount c s)).map (chunkRead c s)) else .rdErr

end Sys2Proof.Machine
end

