-- ==== Sys2Proof/WellFormed.lean ====
section
/-!
DEFINITION. Which commands carry only legal field values (R83, R84, R89): BRT one of the four brightness codes, MODE one of the
nine mode codes. NGRP above 65535, Y from 11 to 15 and any X are no encoding errors (R84, R89).
-/

namespace Sys2Proof

/-- The four brightness byte codes (R91). -/
def brightnessCodes : List Byte := [0x00, 0x10, 0x20, 0x30]

/-- Every field of the command holds a value of the source's valid set (R89, case (c)). -/
def wellFormed : Instr → Bool
  | .nop => true
  | .init brt => brightnessCodes.contains brt
  | .setbrt brt => brightnessCodes.contains brt
  | .addmsg _ _ _ mode _ => decide (mode.toNat ≤ 8)
  | .setpix _ _ _ => true
  | .final => true

end Sys2Proof
end

