-- ==== Sys2Proof/Safety.lean ====
section
/-!
DEFINITION. The predicates claims are stated in: the invariants of R41 with what the register rules R23 to R30 add, the header a
list of messages asks for (R41, R55), the bytes of the padded payload (R173), and what the ports let the host see (R40).
-/

namespace Sys2Proof.Safety

open Sys2Proof.Machine

/-- The header and the view while a payload was opened since reset (R41 (b) to (e), R25, R30, R94, R138). -/
structure Layout (s : State) : Prop where
  /-- R41 (e). -/
  magic : ∀ i < magicLen s.params, s.load i = s.params.magic.getD i 0
  /-- The brightness byte is a code (R91, R95). -/
  brightness : s.brightnessByte ∈ brightnessCodes
  /-- R41 (d), the six reserved bytes after the lengths. -/
  reserved1 : ∀ j < 6, s.load (offReserved1 s.params + j) = 0
  /-- R41 (d), the twenty reserved bytes after the timestamp. -/
  reserved2 : ∀ j < 20, s.load (offReserved2 s.params + j) = 0
  /-- R41 (b), the slots not added yet. -/
  unusedSlots : ∀ i < 8, s.count.toNat ≤ i →
    s.slotLen i = 0 ∧ s.spdModeByte i = 0 ∧ s.blinkByte.getLsbD i = false ∧ s.borderByte.getLsbD i = false
  /-- Bit 7 of a packed byte is 0 and its mode is one of the nine (R93, R94). -/
  packed : ∀ i < 8, (s.spdModeByte i).getLsbD 7 = false ∧ ((s.spdModeByte i).extractLsb' 0 4).toNat ≤ 8
  /-- R41 (c), R25. -/
  rawLength : s.rawLen.toNat = hdrLen s.params + 11 * s.lenSum s.count.toNat
  /-- R41 (c). -/
  inCapacity : s.rawLen.toNat ≤ s.params.rawCapacity
  /-- The view is the region at the end of the payload (R30, R137, R154). -/
  viewStart : hdrLen s.params ≤ s.viewBase.toNat
  viewEnd : s.viewBase.toNat + 11 * s.viewGroups.toNat = s.rawLen.toNat
  /-- The view is the region of the most recently added slot (R30, R54, R138). -/
  viewLatest : 0 < s.count.toNat →
    s.viewBase.toNat = s.slotBase (s.count.toNat - 1) ∧ s.viewGroups.toNat = s.slotLen (s.count.toNat - 1)

/-- The invariants of the machine: R41, and what R23 to R30 say of the registers in each state. `RAW_LEN` is 0 exactly until the
first INIT after reset (R25, R40). -/
structure Inv (s : State) : Prop where
  /-- The canonical form of `BUF`, all of it inside the capacity (R31). -/
  bufWf : s.buf.wf s.params.rawCapacity = true
  /-- R41 (a), R24. -/
  countLe : s.count.toNat ≤ 8
  /-- R25, R40: nothing was opened. -/
  unopened : s.rawLen = 0 → s.count = 0 ∧ s.padLen = 0 ∧ s.viewBase = 0 ∧ s.viewGroups = 0
  /-- R41 (b) to (e). -/
  opened : s.rawLen ≠ 0 → Layout s
  /-- R25. -/
  idle : s.st = .idle → s.rawLen = 0
  /-- R23, R26. -/
  building : s.st = .building → s.rawLen ≠ 0 ∧ s.padLen = 0
  /-- R41 (f), R26. -/
  finalized : s.st = .finalized →
    s.rawLen ≠ 0 ∧ s.padLen.toNat = padLength s.rawLen.toNat ∧ s.padLen.toNat ≤ maxPayload
  /-- R28, R29, R204: exactly one cause, latched in FAULTED alone. -/
  faulted : s.st = .faulted → (∃ c, s.fault = causeBit c) ∧ (s.last = .fault ∨ s.last = .ignored)
  /-- R27 to R29. -/
  notFaulted : s.st ≠ .faulted → s.fault = 0 ∧ s.faultCmd = 0 ∧ (s.last = .ok ∨ s.last = .oob)

/-! ### Words and faults, written from the rules again -/

/-- The words that are no illegal encoding (R86, R89), read as numbers: OP is the word divided by 2^28, the fields below it are
remainders. -/
def wordLegal (w : Word) : Prop :=
  (w.toNat / 2 ^ 28 = 0 ∨ w.toNat / 2 ^ 28 = 5) ∧ w.toNat % 2 ^ 28 = 0
  ∨ (w.toNat / 2 ^ 28 = 1 ∨ w.toNat / 2 ^ 28 = 2) ∧ w.toNat % 2 ^ 28 ∈ [0x00, 0x10, 0x20, 0x30]
  ∨ w.toNat / 2 ^ 28 = 3 ∧ w.toNat / 2 ^ 19 % 16 ≤ 8
  ∨ w.toNat / 2 ^ 28 = 4

/-- The state after fault entry with a numeric cause code (R200, R203). -/
def afterFault (s : State) (code : Nat) (w : Word) : State :=
  { s with fault := s.fault ||| (1 : BitVec 6) <<< code, faultCmd := w, st := .faulted, last := .fault }

/-! ### The header a list of messages asks for -/

/-- One message of a payload: the style and the column-group count of its ADDMSG (R90, R130). -/
structure Message where
  style : Style
  groups : Nat
deriving DecidableEq, Repr

/-- The bitmask byte whose bit `i` (weight 2^i) is the flag of slot `i` (R69). -/
def flagByte (flags : List Bool) : Byte :=
  BitVec.ofNat 8 (flags.foldr (fun b n => b.toNat + 2 * n) 0)

/-- `SPDMODE[i]` (R55, R94): the packed byte of message `i`, 0 for a slot with none. -/
def packedByte (msgs : List Message) (i : Nat) : Byte :=
  match msgs[i]? with
  | some m => spdMode m.style.speed m.style.mode
  | none => 0

/-- The two bytes of `LEN[i]`, big-endian (R52): the count of message `i`, 0 for a slot with none. -/
def lengthBytes (msgs : List Message) (i : Nat) : List Byte :=
  match msgs[i]? with
  | some m => [BitVec.ofNat 8 (m.groups / 256), BitVec.ofNat 8 (m.groups % 256)]
  | none => [0, 0]

/-- The header of a payload with the given brightness, timestamp and messages, field by field in the order of R55. -/
def renderHeader (p : Params) (brt : Byte) (t : Rtc) (msgs : List Message) : List Byte :=
  p.magic ++ [brt, flagByte (msgs.map (·.style.blink)), flagByte (msgs.map (·.style.border))]
    ++ (List.range 8).map (packedByte msgs) ++ (List.range 8).flatMap (lengthBytes msgs)
    ++ List.replicate 6 0 ++ timestampBytes t ++ List.replicate 20 0

/-- The header in `BUF` is the one these messages ask for, and `COUNT` is their number (R41, R95). -/
def HeaderIs (s : State) (brt : Byte) (t : Rtc) (msgs : List Message) : Prop :=
  s.headerBytes = renderHeader s.params brt t msgs ∧ msgs.length = s.count.toNat

/-- What a header is about: brightness byte, creation time, messages. -/
structure HeaderContent where
  brt : Byte
  time : Rtc
  msgs : List Message

/-- What the header is about after a command that left the state `t` (R112, R113, R116, R137): only an INIT, SETBRT or ADDMSG
that ended with OK changes it. -/
def headerAfter (i : Instr) (t : State) (h : HeaderContent) : HeaderContent :=
  if t.last = .ok then
    match i with
    | .init brt => ⟨brt, t.rtc, []⟩
    | .setbrt brt => { h with brt := brt }
    | .addmsg blk brd spd mode ngrp => { h with msgs := h.msgs ++ [⟨⟨blk, brd, spd, mode⟩, ngrp.toNat⟩] }
    | .nop => h
    | .setpix _ _ _ => h
    | .final => h
  else h

/-- What the reference decoder should read of slot `i` (R95): the style and count of message `i`, zeros for a slot with none. -/
def slotOf (msgs : List Message) (i : Nat) : SlotView :=
  match msgs[i]? with
  | some m => ⟨m.style.blink, m.style.border, some m.style.speed, m.style.mode, m.groups⟩
  | none => ⟨false, false, some 0, 0, 0⟩

/-! ### The padded payload -/

/-- The bytes of the padded payload (R54, R173): what `BUF` holds below `RAW_LEN`, then zeros up to `PAD_LEN`. -/
def paddedPayload (s : State) : List Byte :=
  (List.range s.rawLen.toNat).map s.load ++ List.replicate (s.padLen.toNat - s.rawLen.toNat) 0

/-! ### What can be observed -/

/-- A host action without its draw of what reset leaves in `BUF` (R40). -/
def forgetDraw : HostAct → HostAct
  | .command w t => .command w t
  | .reset _ => .reset []

/-- Two states that differ only in bytes of `BUF` at or above `RAW_LEN`, and in the draws of resets to come. -/
structure SameVisible (s t : State) : Prop where
  params : s.params = t.params
  st : s.st = t.st
  count : s.count = t.count
  rawLen : s.rawLen = t.rawLen
  padLen : s.padLen = t.padLen
  last : s.last = t.last
  fault : s.fault = t.fault
  faultCmd : s.faultCmd = t.faultCmd
  viewBase : s.viewBase = t.viewBase
  viewGroups : s.viewGroups = t.viewGroups
  rtc : s.rtc = t.rtc
  host : s.host.map forgetDraw = t.host.map forgetDraw
  bytes : ∀ a < s.rawLen.toNat, s.load a = t.load a

end Sys2Proof.Safety
end

