-- ==== Sys2Proof/Certificates/Slice0/Obligations.lean ====
section
/-!
DEFINITION. The statements about the PEF, each formalising a numbered rule of spec/ or resting on some of them. A result is stated
as the whole next state, so that it says what a command leaves unchanged as well as what it writes; `BUF` is described by the
byte at every address.
-/

open Sys2Proof Sys2Proof.Machine Sys2Proof.Safety

/-! ### Encoding -/

/-- Formats Z, B, M and P (R82 to R85) drop no bit: decoding the word of a command gives the command back, at every value of every
field. -/
def Obligations.DecodeEncodeRoundTrip : Prop :=
  ∀ i : Instr, decode (encode i) = .ok i

/-- Each word has one meaning (R80, R86): the word of the decoded command is the word itself. -/
def Obligations.EncodeDecodeRoundTrip : Prop :=
  ∀ (w : Word) (i : Instr), decode w = .ok i → encode i = w

/-- R89: the three kinds of illegal encodings are exactly the words that decode to no well-formed command. -/
def Obligations.LegalWordsAreWellFormedCommands : Prop :=
  ∀ w : Word, (encodingOk w = true ↔ wordLegal w) ∧ (wordLegal w ↔ ∃ i, decode w = .ok i ∧ wellFormed i = true)

/-- R86, the opcode map: which words select which command. -/
def Obligations.OpcodeMapSelectsByWord : Prop :=
  ∀ w : Word,
    (decode w = .ok .nop ↔ w = 0x00000000) ∧
    (decode w = .ok .final ↔ w = 0x50000000) ∧
    ((∃ b, decode w = .ok (.init b)) ↔ w.toNat / 2 ^ 8 = 0x100000) ∧
    ((∃ b, decode w = .ok (.setbrt b)) ↔ w.toNat / 2 ^ 8 = 0x200000) ∧
    ((∃ b d s m n, decode w = .ok (.addmsg b d s m n)) ↔ w.toNat / 2 ^ 28 = 0x3) ∧
    ((∃ v y x, decode w = .ok (.setpix v y x)) ↔ w.toNat / 2 ^ 28 = 0x4) ∧
    (decode w = .error .reservedOpcode ↔ 0x6 ≤ w.toNat / 2 ^ 28)

/-- R99, the example words, and the lines of R97 and R98 they are assembled from. -/
def Obligations.ExampleWordsDecode : Prop :=
  decode 0x00000000 = .ok .nop ∧ decode 0x10000010 = .ok (.init 0x10) ∧ decode 0x20000030 = .ok (.setbrt 0x30) ∧
  decode 0x32000001 = .ok (.addmsg false false 4 0 1) ∧ decode 0x3FC00002 = .ok (.addmsg true true 7 8 2) ∧
  decode 0x49800009 = .ok (.setpix true 3 9) ∧ decode 0x41800009 = .ok (.setpix false 3 9) ∧
  decode 0x50000000 = .ok .final ∧
  assemble .nop = some 0x00000000 ∧ assemble (.init 0x10) = some 0x10000010 ∧
  assemble (.setbrt 0x30) = some 0x20000030 ∧ assemble (.addmsg 1 4 0 false false) = some 0x32000001 ∧
  assemble (.addmsg 2 7 8 true true) = some 0x3FC00002 ∧ assemble (.setpix 9 3 none) = some 0x49800009 ∧
  assemble (clrpix 9 3) = some 0x41800009 ∧ assemble .final = some 0x50000000

/-! ### Steps and dispatch -/

/-- A step runs the decoded command: when the host issues a word that decodes to a command, the step is that command on the state
whose RTC port presents the time the host gives (R33) and whose host has the rest left to do (R20, R34, R202). -/
def Obligations.StepRunsDecodedCommand : Prop :=
  ∀ (s : State) (w : Word) (c : Rtc) (rest : List HostAct) (i : Instr),
    s.host = .command w c :: rest → decode w = .ok i → step s = exec i { s with host := rest, rtc := c }

/-- R89: an illegal encoding raises ILLEGAL, whatever the state and whatever else is wrong with the command; a legal one never
latches ILLEGAL. -/
def Obligations.IllegalWordLatchesIllegal : Prop :=
  ∀ (s : State) (w : Word) (c : Rtc) (rest : List HostAct),
    s.host = .command w c :: rest → s.st ≠ .faulted →
    (¬ wordLegal w → step s = .next (afterFault { s with host := rest, rtc := c } 0 w)) ∧
    (wordLegal w → s.fault = 0 → ∀ t, step s = .next t → t.fault.getLsbD 0 = false)

/-- R201: a well-formed command that the table does not allow in the current state raises SEQUENCE; one the table allows never
latches SEQUENCE. -/
def Obligations.WrongStateLatchesSequence : Prop :=
  ∀ (s : State) (i : Instr), s.st ≠ .faulted → wellFormed i = true →
    ((s.st = .building ∧ (∃ b, i = .init b)) ∨
      (s.st ≠ .building ∧ i ≠ .nop ∧ ∀ b, i ≠ .init b) → exec i s = .next (afterFault s 1 (encode i))) ∧
    ((i = .nop ∨ (s.st ≠ .building ∧ ∃ b, i = .init b) ∨ (s.st = .building ∧ ∀ b, i ≠ .init b)) → s.fault = 0 →
      ∀ t, exec i s = .next t → t.fault.getLsbD 1 = false)

/-- R204: in FAULTED every word, legal or not, only writes `LAST <- IGNORED`, and no byte or chunk can be read, while the
registers can. -/
def Obligations.FaultedIgnoresEveryWord : Prop :=
  ∀ (s : State) (w : Word) (c : Rtc) (rest : List HostAct), s.st = .faulted → s.host = .command w c :: rest →
    step s = .next { s with last := .ignored, host := rest, rtc := c } ∧
    (∀ a, byteRead s a = .rdErr) ∧ (∀ z k, chunkRead z s k = .rdErr) ∧
    regRead s 3 = s.faultCmd ∧ (regRead s 0).extractLsb' 16 6 = s.fault

/-- R203: a command that raises a fault leaves exactly the state before it, plus the four writes of fault entry for one of
the six causes and the command word. -/
def Obligations.FaultsArePrecise : Prop :=
  ∀ (s t : State) (w : Word) (c : Rtc) (rest : List HostAct),
    s.host = .command w c :: rest → step s = .next t → s.st ≠ .faulted → t.st = .faulted →
    ∃ code < 6, t = afterFault { s with host := rest, rtc := c } code w

/-- R23: the codes of ST, and the only moves between its values. -/
def Obligations.StMovesOnlyAsStated : Prop :=
  (stCode .idle = 0 ∧ stCode .building = 1 ∧ stCode .finalized = 2 ∧ stCode .faulted = 3) ∧
  ∀ s t : State, step s = .next t →
    t.st = s.st ∨
    (∃ w c rest, s.host = .command w c :: rest ∧ s.st ≠ .faulted ∧
      ((t.st = .faulted ∧ t.last = .fault) ∨
        ((s.st = .idle ∨ s.st = .finalized) ∧ t.st = .building ∧ ∃ b, decode w = .ok (.init b)) ∨
        (s.st = .building ∧ t.st = .finalized ∧ decode w = .ok .final))) ∨
    (∃ bs rest, s.host = .reset bs :: rest ∧ t.st = .idle)

/-- R27: what LAST says of the command that wrote it, for every command in every state. -/
def Obligations.LastReportsTheCommand : Prop :=
  ∀ (i : Instr) (s t : State), exec i s = .next t →
    (t.last = .ignored ↔ s.st = .faulted) ∧
    (t.last = .fault ↔ s.st ≠ .faulted ∧ t.st = .faulted) ∧
    (t.last = .oob → (∃ v y x, i = .setpix v y x) ∧ t = { s with last := .oob })

/-! ### NOP, INIT, SETBRT -/

/-- R110: NOP writes LAST and nothing else, in every state but FAULTED, where it is ignored; a word with OP 0 and another bit set
is no NOP and raises ILLEGAL. -/
def Obligations.NopWritesOnlyLast : Prop :=
  (∀ s : State, s.st ≠ .faulted → exec .nop s = .next { s with last := .ok }) ∧
  (∀ s : State, s.st = .faulted → exec .nop s = .next { s with last := .ignored }) ∧
  (∀ (s : State) (w : Word), s.st ≠ .faulted → w.toNat < 2 ^ 28 → w ≠ 0 → issueWord w s = .next (afterFault s 0 w))

/-- R112: INIT opens a new empty payload. Every register it writes, the byte it leaves at every address, what it leaves alone
(FAULT, FAULT_CMD, every byte from HDR_LEN on, none of which can be read now), and its two faults. -/
def Obligations.InitOpensPayload : Prop :=
  (∀ (s : State) (brt : BitVec 8), s.st = .idle ∨ s.st = .finalized → brt ∈ [0x00#8, 0x10#8, 0x20#8, 0x30#8] →
    ∃ (m : Memory) (t : State), exec (.init brt) s = .next t ∧
      t = { s with
        buf := m, count := 0, rawLen := BitVec.ofNat 32 (s.params.magic.length + 59), padLen := 0,
        viewBase := BitVec.ofNat 32 (s.params.magic.length + 59), viewGroups := 0, st := .building, last := .ok } ∧
      (∀ j < s.params.magic.length, m.read j = s.params.magic.getD j 0) ∧
      m.read s.params.magic.length = brt ∧
      (m.read (s.params.magic.length + 33)).toNat = s.rtc.year.toNat % 100 ∧
      m.read (s.params.magic.length + 34) = s.rtc.month ∧ m.read (s.params.magic.length + 35) = s.rtc.day ∧
      m.read (s.params.magic.length + 36) = s.rtc.hour ∧ m.read (s.params.magic.length + 37) = s.rtc.minute ∧
      m.read (s.params.magic.length + 38) = s.rtc.second ∧
      (∀ a, s.params.magic.length < a → a < s.params.magic.length + 33 → m.read a = 0) ∧
      (∀ a, s.params.magic.length + 38 < a → a < s.params.magic.length + 59 → m.read a = 0) ∧
      (∀ a, s.params.magic.length + 59 ≤ a → m.read a = s.buf.read a ∧ byteRead t a = .rdErr)) ∧
  (∀ (s : State) (brt : BitVec 8), s.st = .building → brt ∈ [0x00#8, 0x10#8, 0x20#8, 0x30#8] →
    exec (.init brt) s = .next (afterFault s 1 (encode (.init brt)))) ∧
  (∀ (s : State) (w : Word), s.st ≠ .faulted → w.toNat / 2 ^ 28 = 1 →
    w.toNat % 2 ^ 28 ∉ [0x00, 0x10, 0x20, 0x30] → issueWord w s = .next (afterFault s 0 w))

/-- R116: SETBRT overwrites the brightness byte and no other, in BUILDING; elsewhere it raises SEQUENCE, and ILLEGAL for a value
that is no brightness code or a nonzero reserved field. -/
def Obligations.SetbrtOverwritesOneByte : Prop :=
  (∀ (s : State) (brt : BitVec 8), s.st = .building → brt ∈ [0x00#8, 0x10#8, 0x20#8, 0x30#8] →
    ∃ m : Memory, exec (.setbrt brt) s = .next { s with buf := m, last := .ok } ∧
      ∀ a, m.read a = if a = s.params.magic.length then brt else s.buf.read a) ∧
  (∀ (s : State) (brt : BitVec 8), s.st = .idle ∨ s.st = .finalized → brt ∈ [0x00#8, 0x10#8, 0x20#8, 0x30#8] →
    exec (.setbrt brt) s = .next (afterFault s 1 (encode (.setbrt brt)))) ∧
  (∀ (s : State) (w : Word), s.st ≠ .faulted → w.toNat / 2 ^ 28 = 2 →
    w.toNat % 2 ^ 28 ∉ [0x00, 0x10, 0x20, 0x30] → issueWord w s = .next (afterFault s 0 w))

/-- R117: every brightness code given to INIT or SETBRT is read back and decodes to its value; every other byte raises ILLEGAL and
writes no byte. -/
def Obligations.BrightnessRoundTrip : Prop :=
  (∀ (s : State) (k : Brightness), s.st = .idle ∨ s.st = .finalized →
    ∃ t, exec (.init (brightnessEncode k)) s = .next t ∧ byteRead t s.params.magic.length = .data (brightnessEncode k) ∧
      brightnessDecode (brightnessEncode k) = some k) ∧
  (∀ (s : State) (k : Brightness), Inv s → s.st = .building →
    ∃ t, exec (.setbrt (brightnessEncode k)) s = .next t ∧
      byteRead t s.params.magic.length = .data (brightnessEncode k)) ∧
  (∀ (s : State) (b : BitVec 8), s.st ≠ .faulted → (∀ k, b ≠ brightnessEncode k) →
    brightnessDecode b = none ∧
    exec (.init b) s = .next (afterFault s 0 (encode (.init b))) ∧
    exec (.setbrt b) s = .next (afterFault s 0 (encode (.setbrt b))))

/-- R113: INIT stores the time of INIT, raw binary in the order year, month, day, hour, minute, second, and no other command
changes the timestamp bytes. -/
def Obligations.TimestampIsTimeOfInit : Prop :=
  (∀ (s t : State) (b : BitVec 8), exec (.init b) s = .next t → t.last = .ok →
    t.timestamp = [BitVec.ofNat 8 (s.rtc.year.toNat % 100), s.rtc.month, s.rtc.day, s.rtc.hour, s.rtc.minute, s.rtc.second]) ∧
  (∀ (i : Instr) (s t : State), Inv s → (∀ b, i ≠ .init b) → exec i s = .next t → t.timestamp = s.timestamp)

/-- The RTC port is sampled by INIT and nowhere else (R33, R233): for any other command, another time on the port changes nothing
but the port. -/
def Obligations.RtcIsReadOnlyByInit : Prop :=
  ∀ (i : Instr) (s t : State) (c : Rtc), (∀ b, i ≠ .init b) → exec i s = .next t →
    exec i { s with rtc := c } = .next { t with rtc := c }

/-! ### ADDMSG -/

/-- R137: ADDMSG once its checks pass. Every register it writes and the byte it leaves at every address; everything else is
unchanged. The new slot's bits of BLINK and BORDER are 0 before it (R41). -/
def Obligations.AddmsgAppendsSlot : Prop :=
  (∀ s : State, Inv s → s.st = .building → s.count.toNat < 8 →
    s.blinkByte.getLsbD s.count.toNat = false ∧ s.borderByte.getLsbD s.count.toNat = false) ∧
  ∀ (s : State) (blk brd : Bool) (spd : BitVec 3) (mode : BitVec 4) (n : BitVec 19),
    s.st = .building → mode.toNat ≤ 8 → s.count.toNat < 8 → n.toNat ≤ 65535 →
    s.rawLen.toNat + 11 * n.toNat ≤ s.params.rawCapacity →
    ∃ m : Memory,
      exec (.addmsg blk brd spd mode n) s = .next { s with
        buf := m, viewBase := s.rawLen, viewGroups := BitVec.ofNat 16 n.toNat,
        rawLen := BitVec.ofNat 32 (s.rawLen.toNat + 11 * n.toNat), count := s.count + 1, last := .ok } ∧
      s.rawLen.toNat + 11 * n.toNat < 2 ^ 32 ∧
      ∀ a, m.read a =
        if s.rawLen.toNat ≤ a ∧ a < s.rawLen.toNat + 11 * n.toNat then 0
        else if a = s.params.magic.length + 1 then
          (s.buf.read a &&& ~~~((1 : Byte) <<< s.count.toNat)) ||| (if blk then (1 : Byte) <<< s.count.toNat else 0)
        else if a = s.params.magic.length + 2 then
          (s.buf.read a &&& ~~~((1 : Byte) <<< s.count.toNat)) ||| (if brd then (1 : Byte) <<< s.count.toNat else 0)
        else if a = s.params.magic.length + 3 + s.count.toNat then BitVec.ofNat 8 (spd.toNat * 16 + mode.toNat)
        else if a = s.params.magic.length + 11 + 2 * s.count.toNat then BitVec.ofNat 8 (n.toNat / 256)
        else if a = s.params.magic.length + 12 + 2 * s.count.toNat then BitVec.ofNat 8 (n.toNat % 256)
        else s.buf.read a

/-- R132, R133, R134, R135: the checks in the order SLOTS_FULL, LEN_OVERFLOW, CAPACITY; the first that fails raises its fault and
nothing else is written. A raw length passes 8192 exactly when its padded length does (R134). -/
def Obligations.AddmsgChecksInOrder : Prop :=
  (∀ r : Nat, 8192 < r ↔ 8192 < padLength r) ∧
  ∀ (s : State) (blk brd : Bool) (spd : BitVec 3) (mode : BitVec 4) (n : BitVec 19),
    s.st = .building → mode.toNat ≤ 8 →
    s.count.toNat = 8 ∨ 65535 < n.toNat ∨ s.params.rawCapacity < s.rawLen.toNat + 11 * n.toNat →
    exec (.addmsg blk brd spd mode n) s =
      .next (afterFault s (if s.count.toNat = 8 then 2 else if 65535 < n.toNat then 3 else 4)
        (encode (.addmsg blk brd spd mode n)))

/-- A zero-width ADDMSG is a valid, empty slot (R139): COUNT grows, RAW_LEN and every byte outside the slot's header fields stay,
the length field is 0, and the view is empty, so that SETPIX is out of bounds. -/
def Obligations.ZeroWidthMessageIsEmptySlot : Prop :=
  ∀ (s : State) (blk brd : Bool) (spd : BitVec 3) (mode : BitVec 4), Inv s →
    s.st = .building → mode.toNat ≤ 8 → s.count.toNat < 8 →
    ∃ t, exec (.addmsg blk brd spd mode 0) s = .next t ∧ t.last = .ok ∧ t.rawLen = s.rawLen ∧
      t.count.toNat = s.count.toNat + 1 ∧ t.viewBase = s.rawLen ∧ t.viewGroups = 0 ∧
      t.slotLen s.count.toNat = 0 ∧ (t.spdModeByte s.count.toNat).toNat = spd.toNat * 16 + mode.toNat ∧
      t.blinkByte.getLsbD s.count.toNat = blk ∧ t.borderByte.getLsbD s.count.toNat = brd ∧
      (∀ a, s.params.magic.length + 59 ≤ a → t.load a = s.load a) ∧
      ∀ v y x, exec (.setpix v y x) t = .next { t with last := .oob }

/-- After an ADDMSG every pixel of the new view is off (R58, R137, R138). -/
def Obligations.FreshRegionIsDark : Prop :=
  ∀ (s t : State) (blk brd : Bool) (spd : BitVec 3) (mode : BitVec 4) (n : BitVec 19),
    exec (.addmsg blk brd spd mode n) s = .next t → t.last = .ok →
    ∀ x y, x < 8 * t.viewGroups.toNat → y < 11 → t.pixelOn t.viewBase.toNat x y = false

/-- ADDMSG moves the view (R138, R236): a SETPIX after it changes no byte below the old RAW_LEN, the earlier slots' regions and
the header among them. -/
def Obligations.ViewMovesToNewSlot : Prop :=
  ∀ (s t u : State) (blk brd v : Bool) (spd : BitVec 3) (mode y : BitVec 4) (n : BitVec 19) (x : BitVec 23),
    exec (.addmsg blk brd spd mode n) s = .next t → t.last = .ok → exec (.setpix v y x) t = .next u →
    ∀ a < s.rawLen.toNat, u.load a = t.load a

/-! ### SETPIX -/

/-- R151, R152, R153: SETPIX in BUILDING. Out of bounds it writes LAST and no byte; in bounds the pixel's bit becomes the value, at
`VIEW_BASE + (x div 8) * 11 + y` under the mask `0x80 >> (x mod 8)`, and everything else is unchanged. In IDLE and FINALIZED it
raises SEQUENCE; no word with OP 4 is ILLEGAL. The premise that the address lies in BUF holds in every state reached from reset (R154). -/
def Obligations.SetpixWritesPixel : Prop :=
  ∀ (s : State) (v : Bool) (y : BitVec 4) (x : BitVec 23),
    (s.st = .building → (11 ≤ y.toNat ∨ 8 * s.viewGroups.toNat ≤ x.toNat) →
      exec (.setpix v y x) s = .next { s with last := .oob }) ∧
    (s.st = .building → y.toNat < 11 → x.toNat < 8 * s.viewGroups.toNat →
      s.viewBase.toNat + x.toNat / 8 * 11 + y.toNat < s.params.rawCapacity →
      ∃ m : Memory, exec (.setpix v y x) s = .next { s with buf := m, last := .ok } ∧
        ∀ a, m.read a =
          if a = s.viewBase.toNat + x.toNat / 8 * 11 + y.toNat then
            (if v then s.buf.read a ||| (0x80 : Byte) >>> (x.toNat % 8)
              else s.buf.read a &&& ~~~((0x80 : Byte) >>> (x.toNat % 8)))
          else s.buf.read a) ∧
    (s.st = .idle ∨ s.st = .finalized →
      exec (.setpix v y x) s = .next (afterFault s 1 (encode (.setpix v y x)))) ∧
    ∀ w : Word, w.toNat / 2 ^ 28 = 4 → ∃ v' y' x', decode w = .ok (.setpix v' y' x') ∧ encodingOk w = true

/-- R155: an in-bounds SETPIX changes at most one bit of BUF, bit `pix_mask(x)` of byte `pix_addr(x, y)`. -/
def Obligations.SetpixChangesOneBit : Prop :=
  ∀ (s t : State) (v : Bool) (y : BitVec 4) (x : BitVec 23),
    exec (.setpix v y x) s = .next t → t.last = .ok →
    (t.load (s.viewBase.toNat + x.toNat / 8 * 11 + y.toNat)).getLsbD (7 - x.toNat % 8) = v ∧
    ∀ a j, j < 8 → (a ≠ s.viewBase.toNat + x.toNat / 8 * 11 + y.toNat ∨ j ≠ 7 - x.toNat % 8) →
      (t.load a).getLsbD j = (s.load a).getLsbD j

/-- On the pixel grid of the view (R58): after an in-bounds SETPIX the pixel has the value, and every other pixel of the grid is as
it was; no two pixels share a bit. -/
def Obligations.SetpixUpdatesPixelGrid : Prop :=
  ∀ (s t : State) (v : Bool) (y : BitVec 4) (x : BitVec 23),
    exec (.setpix v y x) s = .next t → t.last = .ok →
    ∀ x' y', x' < 8 * s.viewGroups.toNat → y' < 11 →
      t.pixelOn s.viewBase.toNat x' y' =
        if x' = x.toNat ∧ y' = y.toNat then v else s.pixelOn s.viewBase.toNat x' y'

/-- R154: SETPIX never writes the header, another slot's region, or any byte at or above RAW_LEN. The view is the region of the
current slot, COUNT - 1, and every other slot's region keeps its bytes. -/
def Obligations.SetpixStaysInView : Prop :=
  ∀ (s t : State) (v : Bool) (y : BitVec 4) (x : BitVec 23),
    Inv s → s.st = .building → exec (.setpix v y x) s = .next t →
    s.params.magic.length + 59 ≤ s.viewBase.toNat ∧
    s.viewBase.toNat + 11 * s.viewGroups.toNat = s.rawLen.toNat ∧
    (0 < s.count.toNat → s.viewBase.toNat = s.slotBase (s.count.toNat - 1) ∧
      s.viewBase.toNat + 11 * s.viewGroups.toNat = s.slotBase s.count.toNat) ∧
    (∀ i, i + 1 < s.count.toNat → ∀ a, s.slotBase i ≤ a → a < s.slotBase (i + 1) → t.load a = s.load a) ∧
    (y.toNat < 11 → x.toNat < 8 * s.viewGroups.toNat →
      s.viewBase.toNat ≤ s.viewBase.toNat + x.toNat / 8 * 11 + y.toNat ∧
      s.viewBase.toNat + x.toNat / 8 * 11 + y.toNat ≤ s.viewBase.toNat + 11 * s.viewGroups.toNat - 1) ∧
    (0 < s.viewGroups.toNat →
      s.viewBase.toNat + (8 * s.viewGroups.toNat - 1) / 8 * 11 + 10 = s.viewBase.toNat + 11 * s.viewGroups.toNat - 1) ∧
    ∀ a, a < s.viewBase.toNat ∨ s.viewBase.toNat + 11 * s.viewGroups.toNat ≤ a → t.load a = s.load a

/-- Two SETPIX of one pixel leave the value of the second (R156 (g)): the first has no effect that the second does not undo. -/
def Obligations.LastSetpixWins : Prop :=
  ∀ (s t : State) (v v' : Bool) (y : BitVec 4) (x : BitVec 23),
    s.st = .building → exec (.setpix v y x) s = .next t →
    exec (.setpix v' y x) t = exec (.setpix v' y x) s

/-- When a command stops the machine: SETPIX on an in-bounds pixel whose byte lies outside BUF (R31, R50; the model's own stop, log
entry 10), and nothing else; no command is refused. No state that meets the invariant has such a pixel (R154). -/
def Obligations.StopsOnlyOutsideBuf : Prop :=
  ∀ (i : Instr) (s : State),
    (∀ f, exec i s = .fault f ↔
      ∃ v y x, i = .setpix v y x ∧ s.st = .building ∧ y.toNat < 11 ∧ x.toNat < 8 * s.viewGroups.toNat ∧
        s.params.rawCapacity ≤ s.viewBase.toNat + x.toNat / 8 * 11 + y.toNat ∧
        f = .outsideBuf (s.viewBase.toNat + x.toNat / 8 * 11 + y.toNat)) ∧
    (∀ r, exec i s ≠ .refused r) ∧ (Inv s → ∀ f, exec i s ≠ .fault f)

/-! ### FINAL -/

/-- R171, R172, R174: FINAL in BUILDING pads the length up to a multiple of 64 and seals the payload, or raises SIZE above 8192;
elsewhere it raises SEQUENCE, and a word with OP 5 and another bit set raises ILLEGAL. It writes no byte of BUF. With RAW_CAPACITY
= 8192 the padded length never passes 8192. -/
def Obligations.FinalSealsOrRaisesSize : Prop :=
  ∀ s : State,
    (s.st = .building → (s.rawLen.toNat + 63) / 64 * 64 ≤ 8192 →
      exec .final s = .next { s with
        padLen := BitVec.ofNat 32 ((s.rawLen.toNat + 63) / 64 * 64), st := .finalized, last := .ok }) ∧
    (s.st = .building → 8192 < (s.rawLen.toNat + 63) / 64 * 64 →
      exec .final s = .next (afterFault s 5 0x50000000) ∧ ∀ a, byteRead (afterFault s 5 0x50000000) a = .rdErr) ∧
    (s.st = .idle ∨ s.st = .finalized → exec .final s = .next (afterFault s 1 0x50000000)) ∧
    (s.st ≠ .faulted → ∀ w : Word, w.toNat / 2 ^ 28 = 5 → w ≠ 0x50000000 → issueWord w s = .next (afterFault s 0 w)) ∧
    (Inv s → s.st = .building → s.params.rawCapacity = 8192 → (s.rawLen.toNat + 63) / 64 * 64 ≤ 8192)

/-- With RAW_CAPACITY = 8192 (D6) SIZE cannot occur (R172 (d)): every open payload is sealed, at its padded length. -/
def Obligations.SizeCannotOccurAtDecidedCapacity : Prop :=
  ∀ s : State, Inv s → s.st = .building → s.params.rawCapacity = 8192 →
    ∃ t, exec .final s = .next t ∧ t.st = .finalized ∧ t.last = .ok ∧
      t.padLen.toNat = (s.rawLen.toNat + 63) / 64 * 64 ∧ t.rawLen = s.rawLen ∧ t.buf = s.buf

/-! ### Ports -/

/-- R35, R36: the fields of STATUS and the register map, with the codes of ST (R23) and LAST (R27). -/
def Obligations.StatusAndRegisterMap : Prop :=
  (stCode .idle = 0 ∧ stCode .building = 1 ∧ stCode .finalized = 2 ∧ stCode .faulted = 3) ∧
  (lastCode .ok = 0 ∧ lastCode .oob = 1 ∧ lastCode .fault = 2 ∧ lastCode .ignored = 3) ∧
  ∀ s : State,
    (regRead s 0).extractLsb' 0 2 = stCode s.st ∧ (regRead s 0).extractLsb' 2 2 = 0 ∧
    (regRead s 0).extractLsb' 4 4 = s.count ∧ (regRead s 0).extractLsb' 8 2 = lastCode s.last ∧
    (regRead s 0).extractLsb' 10 6 = 0 ∧ (regRead s 0).extractLsb' 16 6 = s.fault ∧
    (regRead s 0).extractLsb' 22 10 = 0 ∧
    regRead s 1 = s.rawLen ∧ regRead s 2 = s.padLen ∧ regRead s 3 = s.faultCmd

/-- R60, R173: what ByteRead returns in each state, with padding reading as zero. -/
def Obligations.ByteReadReturns : Prop :=
  ∀ (s : State) (a : Nat),
    (s.st = .finalized → a < s.padLen.toNat → a < s.rawLen.toNat → byteRead s a = .data (s.load a)) ∧
    (s.st = .finalized → a < s.padLen.toNat → s.rawLen.toNat ≤ a → byteRead s a = .data 0) ∧
    (s.st = .building → a < s.rawLen.toNat → byteRead s a = .data (s.load a)) ∧
    (s.st = .idle ∨ s.st = .faulted ∨ (s.st = .finalized ∧ s.padLen.toNat ≤ a) ∨
      (s.st = .building ∧ s.rawLen.toNat ≤ a) → byteRead s a = .rdErr)

/-- R176, with CHUNK_SIZE 64 for USB and 16 for BLE (R6): there are exactly `PAD_LEN / CHUNK_SIZE` chunks, chunk k holds bytes `k*C .. k*C + C - 1` of the padded payload, and any
other index, or any state but FINALIZED, answers RD_ERR. -/
def Obligations.ChunkReadSlicesPayload : Prop :=
  (chunkBytes .usb = 64 ∧ chunkBytes .ble = 16) ∧
  ∀ (s : State) (c : ChunkSize) (k : Nat), Inv s →
    (s.st = .finalized → k < s.padLen.toNat / chunkBytes c →
      chunkRead c s k = .data (((paddedPayload s).drop (k * chunkBytes c)).take (chunkBytes c)) ∧
      (((paddedPayload s).drop (k * chunkBytes c)).take (chunkBytes c)).length = chunkBytes c) ∧
    (s.st = .finalized → s.padLen.toNat / chunkBytes c ≤ k → chunkRead c s k = .rdErr) ∧
    (s.st ≠ .finalized → chunkRead c s k = .rdErr)

/-- The chunks sent in ascending order, each once (R177), are the padded payload cut into whole chunks: their concatenation is the
payload, for either chunk size. -/
def Obligations.ChunkStreamIsPaddedPayload : Prop :=
  ∀ (s : State) (c : ChunkSize), Inv s → s.st = .finalized →
    ∃ cs, chunkStream c s = .data cs ∧ cs.flatten = paddedPayload s ∧
      cs.length * chunkBytes c = s.padLen.toNat ∧ ∀ b ∈ cs, b.length = chunkBytes c

/-- R175: the properties of the padded payload. -/
def Obligations.PaddedPayloadProperties : Prop :=
  ∀ s : State, Inv s → s.st = .finalized →
    s.padLen.toNat % 64 = 0 ∧ s.rawLen.toNat ≤ s.padLen.toNat ∧ s.padLen.toNat < s.rawLen.toNat + 64 ∧
    s.padLen.toNat ≤ 8192 ∧ (∀ a, s.rawLen.toNat ≤ a → a < s.padLen.toNat → byteRead s a = .data 0) ∧
    s.padLen.toNat % 16 = 0

/-- INIT ends the readability of the payload before it (R112 (c), R237): nothing from HDR_LEN on can be read, no chunk, and
PAD_LEN is 0. -/
def Obligations.InitHidesOldPayload : Prop :=
  ∀ (s t : State) (b : BitVec 8), exec (.init b) s = .next t → t.last = .ok →
    (∀ a, s.params.magic.length + 59 ≤ a → byteRead t a = .rdErr) ∧
    (∀ a < s.params.magic.length + 59, ∃ v, byteRead t a = .data v) ∧
    (∀ c k, chunkRead c t k = .rdErr) ∧ t.padLen = 0

/-! ### Reset -/

/-- R230: what reset leaves in every register, and that it is the only way out of FAULTED. The bytes of BUF are left open, and so
are the fields that are no register: the RTC port, the parameters and the host's actions. -/
def Obligations.ResetSetsRegistersAndAloneLeavesFaulted : Prop :=
  (∀ (s : State) (bs : List Byte) (rest : List HostAct), s.host = .reset bs :: rest →
    ∃ (m : Memory) (p : Params) (c : Rtc) (acts : List HostAct),
      step s = .next
        { params := p, st := .idle, count := 0, rawLen := 0, padLen := 0, last := .ok, fault := 0, faultCmd := 0,
          viewBase := 0, viewGroups := 0, buf := m, rtc := c, host := acts }) ∧
  (∀ s t : State, step s = .next t → s.st = .faulted → t.st ≠ .faulted → ∃ bs rest, s.host = .reset bs :: rest)

/-- Reset leaves what is no register alone. It is the model's choice that the RTC port keeps its value (log entries 3 and 7), that
the parameters are a field no step changes (log entry 4), and that the host then has the rest of its actions to do (log entry 1). -/
def Obligations.ResetLeavesSurroundingsAlone : Prop :=
  ∀ (s t : State) (bs : List Byte) (rest : List HostAct), s.host = .reset bs :: rest → step s = .next t →
    t.rtc = s.rtc ∧ t.params = s.params ∧ t.host = rest

/-- Reset leaves BUF unspecified (R40): every content of its bytes is left by some draw of the host's action, which is the model's
own way to leave them open (log entry 7), and none of it can be read. -/
def Obligations.ResetMayLeaveAnyContents : Prop :=
  ∀ (s : State) (rest : List HostAct) (contents : Nat → Byte),
    ∃ (bs : List Byte) (t : State), step { s with host := .reset bs :: rest } = .next t ∧
      (∀ a < s.params.rawCapacity, t.load a = contents a) ∧ ∀ a, byteRead t a = .rdErr

/-- The registers of State.reset (R40). Nothing is said of BUF, of the RTC port, or of the host's actions, whose values are the
model's choice (log entries 2, 3 and 6). -/
def Obligations.ResetRegisterValues : Prop :=
  State.reset.st = .idle ∧ State.reset.count = 0 ∧ State.reset.rawLen = 0 ∧ State.reset.padLen = 0 ∧
  State.reset.last = .ok ∧ State.reset.fault = 0 ∧ State.reset.faultCmd = 0 ∧ State.reset.viewBase = 0 ∧
  State.reset.viewGroups = 0 ∧ regRead State.reset 0 = 0 ∧ ∀ a, byteRead State.reset a = .rdErr

/-! ### The whole machine -/

/-- The invariant holds after reset. -/
def Obligations.InvariantHoldsAtReset : Prop :=
  Inv State.reset

/-- R41 with the register rules R23 to R30 (the view is the region of the most recently added slot among them): every step keeps
the invariant, whatever the host does. -/
def Obligations.EveryStepKeepsInvariant : Prop :=
  ∀ s t : State, Inv s → step s = .next t → Inv t

/-- No step stops the machine: from every state that meets the invariant each action of the host has a next state (R202: every
command completes or raises a fault; R154: no SETPIX leaves BUF). -/
def Obligations.EveryStepCompletes : Prop :=
  ∀ s : State, Inv s → ∃ t, step s = .next t

/-- The header is always the one the completed commands ask for (R41 (b), R95; R112, R116, R137): an INIT that completes gives the
empty header of its brightness and time, and every command takes the header of some content to the header of that content updated
by the command. The in-place updates of BUF refine the list of messages. -/
def Obligations.HeaderRefinesMessageList : Prop :=
  (∀ (s t : State) (b : BitVec 8), exec (.init b) s = .next t → t.last = .ok → HeaderIs t b s.rtc []) ∧
  (∀ (i : Instr) (s t : State) (h : HeaderContent), Inv s → HeaderIs s h.brt h.time h.msgs → exec i s = .next t →
    HeaderIs t (headerAfter i t h).brt (headerAfter i t h).time (headerAfter i t h).msgs)

/-- R95: the reference decoder reads of such a header the magic, the brightness, each message's style and count, zeros for every
other slot, and the six timestamp bytes. -/
def Obligations.HeaderDecodeReadsMessages : Prop :=
  ∀ (s : State) (k : Brightness) (c : Rtc) (msgs : List Message),
    HeaderIs s (brightnessEncode k) c msgs → msgs.length ≤ 8 → (∀ m ∈ msgs, m.groups ≤ 65535) →
    headerDecode s.params s.headerBytes =
      { magicOk := true, brightness := some k, slots := (List.range 8).map (slotOf msgs),
        timestamp := [BitVec.ofNat 8 (c.year.toNat % 100), c.month, c.day, c.hour, c.minute, c.second] }

/-- What BUF holds at or above RAW_LEN, in particular after reset, cannot be observed (R40): two states that differ only there take
the same steps to states that differ only there. -/
def Obligations.UnreadBytesNeverMatter : Prop :=
  ∀ s s' t : State, Inv s → SameVisible s s' → step s = .next t →
    ∃ t', step s' = .next t' ∧ SameVisible t t'

/-- Two states that differ only in bytes at or above RAW_LEN answer the same at every port (R40). -/
def Obligations.PortsSeeOnlyVisibleBytes : Prop :=
  ∀ s s' : State, SameVisible s s' →
    (∀ r, regRead s r = regRead s' r) ∧ (∀ a, byteRead s a = byteRead s' a) ∧
    (∀ c k, chunkRead c s k = chunkRead c s' k)

/-- RAW_LEN only grows while a payload is built (R22): no command but INIT makes it smaller, and only ADDMSG changes it. -/
def Obligations.RawLenOnlyGrows : Prop :=
  ∀ (i : Instr) (s t : State), (∀ b, i ≠ .init b) → exec i s = .next t →
    s.rawLen.toNat ≤ t.rawLen.toNat ∧
    (t.rawLen ≠ s.rawLen → ∃ b d sp m n, i = .addmsg b d sp m n ∧ t.rawLen.toNat = s.rawLen.toNat + 11 * n.toNat)

/-! ### Host side -/

/-- R97: the assembler accepts exactly the values that fit their fields, and what it accepts decodes to those values. -/
def Obligations.AssemblerAcceptsFittingValues : Prop :=
  (∀ b, (∃ w, assemble (.init b) = some w) ↔ b < 256) ∧
  (∀ b, (∃ w, assemble (.setbrt b) = some w) ↔ b < 256) ∧
  (∀ g sp m bl bo, (∃ w, assemble (.addmsg g sp m bl bo) = some w) ↔ g ≤ 524287 ∧ sp ≤ 7 ∧ m ≤ 15) ∧
  (∀ x y v, (∃ w, assemble (.setpix x y v) = some w) ↔ x ≤ 8388607 ∧ y ≤ 15 ∧ (v = none ∨ v = some 0 ∨ v = some 1)) ∧
  (∀ b w, assemble (.init b) = some w → decode w = .ok (.init (BitVec.ofNat 8 b))) ∧
  (∀ b w, assemble (.setbrt b) = some w → decode w = .ok (.setbrt (BitVec.ofNat 8 b))) ∧
  (∀ g sp m bl bo w, assemble (.addmsg g sp m bl bo) = some w →
    decode w = .ok (.addmsg bl bo (BitVec.ofNat 3 sp) (BitVec.ofNat 4 m) (BitVec.ofNat 19 g))) ∧
  (∀ x y v w, assemble (.setpix x y v) = some w →
    decode w = .ok (.setpix (decide (v ≠ some 0)) (BitVec.ofNat 4 y) (BitVec.ofNat 23 x)))

/-- ADDMSGD (R98): the smallest number of groups whose columns cover the drawable, and a SETPIX for each lit pixel with no negative
coordinate. That no line is issued for a pixel that is off is the model's choice (log entry 16): R98 lets the host issue them. -/
def Obligations.AddmsgdExpandsDrawable : Prop :=
  ∀ (st : Style) (d : Drawable),
    d.rightEdge ≤ 8 * drawableGroups d ∧ 8 * drawableGroups d < d.rightEdge + 8 ∧
    (∀ l, l ∈ (addmsgd st d).tail ↔ ∃ x y : Nat, l = .setpix x y (some 1) ∧ ((x : Int), (y : Int)) ∈ d.lit) ∧
    (addmsgd st d).head? = some (.addmsg (drawableGroups d) st.speed.toNat st.mode.toNat st.blink st.border)
end

