-- ==== Sys2Proof/Laws/Encoding.lean ====
section
/-!
SUPPORT. The fields of an encoded command: slicing a concatenation, and what each format's word holds at each field (R81 to R85).
-/

namespace Sys2Proof.Laws

/-- A slice that lies in the upper part of a concatenation. -/
theorem extractLsb'_append_high {m n : Nat} (x : BitVec m) (y : BitVec n) (k w : Nat) (h : n ≤ k) :
    (x ++ y).extractLsb' k w = x.extractLsb' (k - n) w := by
  apply BitVec.eq_of_getLsbD_eq
  intro i hi
  simp only [BitVec.getLsbD_extractLsb', BitVec.getLsbD_append]
  rw [if_neg (by omega), show k + i - n = k - n + i by omega]

/-- A slice that lies in the lower part of a concatenation. -/
theorem extractLsb'_append_low {m n : Nat} (x : BitVec m) (y : BitVec n) (k w : Nat) (h : k + w ≤ n) :
    (x ++ y).extractLsb' k w = y.extractLsb' k w := by
  apply BitVec.eq_of_getLsbD_eq
  intro i hi
  simp only [BitVec.getLsbD_extractLsb', BitVec.getLsbD_append]
  rw [if_pos (by omega)]

/-- A slice of a whole vector. -/
theorem extractLsb'_whole {n : Nat} (x : BitVec n) : x.extractLsb' 0 n = x := by
  apply BitVec.eq_of_getLsbD_eq
  intro i hi
  simp [hi]

/-- Two adjacent slices of a vector are one slice. -/
theorem extractLsb'_append_extractLsb' {n : Nat} (x : BitVec n) (j a b : Nat) :
    x.extractLsb' (j + b) a ++ x.extractLsb' j b = x.extractLsb' j (a + b) := by
  apply BitVec.eq_of_getLsbD_eq
  intro i hi
  simp only [BitVec.getLsbD_append, BitVec.getLsbD_extractLsb', hi]
  by_cases h : i < b
  · simp [h]
  · rw [if_neg h, show j + b + (i - b) = j + i by omega]
    simp
    omega

/-- One bit of a vector as a slice. -/
theorem ofBool_getLsbD {n : Nat} (x : BitVec n) (k : Nat) : BitVec.ofBool (x.getLsbD k) = x.extractLsb' k 1 := by
  apply BitVec.eq_of_getLsbD_eq
  intro i hi
  obtain rfl : i = 0 := by omega
  simp

/-- OP as a number (R81). -/
theorem opField_toNat (w : Word) : (opField w).toNat = w.toNat / 2 ^ 28 := by
  have := w.isLt
  simp only [opField, BitVec.extractLsb'_toNat, Nat.shiftRight_eq_div_pow]
  omega

/-- The 28 bits below OP as a number (R82). -/
theorem operand_toNat (w : Word) : (w.extractLsb' 0 28).toNat = w.toNat % 2 ^ 28 := by
  simp only [BitVec.extractLsb'_toNat, Nat.shiftRight_zero]

section
variable (brt : BitVec 8) (b d v : Bool) (s : BitVec 3) (m y : BitVec 4) (n : BitVec 19) (x : BitVec 23)

@[simp] theorem opField_nop : opField (encode .nop) = 0 := by decide
@[simp] theorem opField_final : opField (encode .final) = 5 := by decide
@[simp] theorem opField_init : opField (encode (.init brt)) = 1 := by
  unfold opField encode; rw [extractLsb'_append_high _ _ _ _ (by omega)]; decide
@[simp] theorem opField_setbrt : opField (encode (.setbrt brt)) = 2 := by
  unfold opField encode; rw [extractLsb'_append_high _ _ _ _ (by omega)]; decide
@[simp] theorem opField_addmsg : opField (encode (.addmsg b d s m n)) = 3 := by
  unfold opField encode
  rw [extractLsb'_append_high _ _ _ _ (by omega), extractLsb'_append_high _ _ _ _ (by omega),
    extractLsb'_append_high _ _ _ _ (by omega), extractLsb'_append_high _ _ _ _ (by omega),
    extractLsb'_append_high _ _ _ _ (by omega)]
  decide
@[simp] theorem opField_setpix : opField (encode (.setpix v y x)) = 4 := by
  unfold opField encode
  rw [extractLsb'_append_high _ _ _ _ (by omega), extractLsb'_append_high _ _ _ _ (by omega),
    extractLsb'_append_high _ _ _ _ (by omega)]
  decide

@[simp] theorem rsvd_init : (encode (.init brt)).extractLsb' 8 20 = 0 := by
  unfold encode; rw [extractLsb'_append_high _ _ _ _ (by omega)]; decide
@[simp] theorem brt_init : (encode (.init brt)).extractLsb' 0 8 = brt := by
  unfold encode; rw [extractLsb'_append_low _ _ _ _ (by omega), extractLsb'_whole]
@[simp] theorem rsvd_setbrt : (encode (.setbrt brt)).extractLsb' 8 20 = 0 := by
  unfold encode; rw [extractLsb'_append_high _ _ _ _ (by omega)]; decide
@[simp] theorem brt_setbrt : (encode (.setbrt brt)).extractLsb' 0 8 = brt := by
  unfold encode; rw [extractLsb'_append_low _ _ _ _ (by omega), extractLsb'_whole]
@[simp] theorem mode_addmsg : (encode (.addmsg b d s m n)).extractLsb' 19 4 = m := by
  unfold encode
  rw [extractLsb'_append_high _ _ _ _ (by omega), extractLsb'_append_low _ _ _ _ (by omega), extractLsb'_whole]

end

end Sys2Proof.Laws
end

