-- ==== Sys2Proof/Laws/Assembler.lean ====
section
/-!
SUPPORT. What the assembler's operand check and ADDMSGD's pixel lines do (R97, R98).
-/

namespace Sys2Proof.Laws

open Sys2Proof.Machine

theorem fitField_of_lt {n k : Nat} (h : k < 2 ^ n) : fitField n k = some (BitVec.ofNat n k) := if_pos h

theorem fitField_of_le {n k : Nat} (h : 2 ^ n ≤ k) : fitField n k = none := if_neg (Nat.not_lt.mpr h)

/-- The lines drawn are those of the pixels with no negative coordinate (R98). -/
theorem mem_drawLines (l : List (Int × Int)) (a : AsmLine) :
    a ∈ drawLines l ↔ ∃ x y : Nat, a = .setpix x y (some 1) ∧ ((x : Int), (y : Int)) ∈ l := by
  induction l with
  | nil => simp [drawLines]
  | cons p l ih =>
    obtain ⟨x, y⟩ := p
    simp only [drawLines]
    split
    · next h =>
      obtain ⟨x, rfl⟩ := Int.eq_ofNat_of_zero_le h.1
      obtain ⟨y, rfl⟩ := Int.eq_ofNat_of_zero_le h.2
      simp only [List.mem_cons, ih, Int.toNat_natCast]
      constructor
      · rintro (rfl | ⟨a, b, rfl, h⟩)
        · exact ⟨x, y, rfl, .inl rfl⟩
        · exact ⟨a, b, rfl, .inr h⟩
      · rintro ⟨a, b, rfl, h | h⟩
        · simp at h; simp [h]
        · exact .inr ⟨a, b, rfl, h⟩
    · next h =>
      rw [ih]
      constructor
      · rintro ⟨a, b, rfl, h⟩; exact ⟨a, b, rfl, List.mem_cons_of_mem _ h⟩
      · rintro ⟨a, b, rfl, h'⟩
        rcases List.mem_cons.mp h' with h' | h'
        · simp at h'; omega
        · exact ⟨a, b, rfl, h'⟩

end Sys2Proof.Laws
end

