-- ==== Sys2Proof/Laws/Memory.lean ====
section
/-!
SUPPORT. Reading the payload buffer after each operation on it, and that each operation keeps the canonical form.
-/

namespace Sys2Proof.Laws

open Sys2Proof.Machine

/-! ### Reading -/

@[simp] theorem read_nil (a : Nat) : Memory.read [] a = Memory.unlisted := rfl

theorem read_cons (k : Nat) (b : Byte) (m : Memory) (a : Nat) :
    Memory.read ((k, b) :: m) a = if k = a then b else Memory.read m a := rfl

/-- Taking entries away by their address leaves the others as they read. -/
theorem read_filter (q : Nat → Bool) (m : Memory) (a : Nat) :
    Memory.read (m.filter fun c => q c.1) a = if q a then m.read a else Memory.unlisted := by
  induction m with
  | nil => simp
  | cons c m ih =>
    obtain ⟨k, b⟩ := c
    by_cases hk : k = a
    · subst hk
      by_cases hq : q k <;> simp [hq, read_cons, ih]
    · by_cases hq : q k <;> simp [hq, read_cons, hk, ih]

@[simp] theorem read_erase (m : Memory) (a b : Nat) :
    (Memory.erase m a).read b = if b = a then Memory.unlisted else m.read b := by
  rw [Memory.erase, read_filter (fun k => k != a)]
  by_cases h : b = a <;> simp [h]

theorem read_insert_of_absent (m : Memory) (a b : Nat) (v : Byte) (h : ∀ c ∈ m, c.1 ≠ a) :
    (Memory.insert m a v).read b = if b = a then v else m.read b := by
  induction m with
  | nil => simp [Memory.insert, read_cons, eq_comm]
  | cons c m ih =>
    obtain ⟨k, x⟩ := c
    have hk : k ≠ a := h (k, x) (by simp)
    have ih := ih fun c hc => h c (by simp [hc])
    by_cases hlt : a < k
    · simp [Memory.insert, hlt, read_cons, eq_comm]
    · simp only [Memory.insert, hlt, if_false, read_cons, ih]
      by_cases hb : b = a
      · subst hb; simp [hk]
      · simp [hb]

theorem absent_erase (m : Memory) (a : Nat) : ∀ c ∈ m.erase a, c.1 ≠ a := by
  intro c hc
  simpa using (List.mem_filter.mp hc).2

/-- A read after a write: the value written at its address, everything else as before. -/
@[simp] theorem read_write (m : Memory) (a b : Nat) (v : Byte) :
    (Memory.write m a v).read b = if b = a then v else m.read b := by
  rw [Memory.write]
  split
  · next h => subst h; simp
  · rw [read_insert_of_absent _ _ _ _ (absent_erase m a), read_erase]
    by_cases h : b = a <;> simp [h]

/-- A read after successive writes from `a` upwards. -/
theorem read_writeBytes (vs : List Byte) (m : Memory) (a b : Nat) :
    (Memory.writeBytes m a vs).read b = if a ≤ b ∧ b < a + vs.length then vs.getD (b - a) 0 else m.read b := by
  induction vs generalizing m a with
  | nil => simp only [Memory.writeBytes, List.length_nil]; rw [if_neg (by omega)]
  | cons v vs ih =>
    rw [Memory.writeBytes, ih, read_write]
    simp only [List.length_cons]
    by_cases hb : b = a
    · subst hb
      rw [if_neg (by omega), if_pos rfl, if_pos (by omega)]
      simp
    · by_cases h : a + 1 ≤ b ∧ b < a + 1 + vs.length
      · rw [if_pos h, if_pos (by omega)]
        obtain ⟨d, rfl⟩ : ∃ d, b = a + 1 + d := ⟨b - (a + 1), by omega⟩
        rw [show a + 1 + d - (a + 1) = d by omega, show a + 1 + d - a = d + 1 by omega, List.getD_cons_succ]
      · rw [if_neg h, if_neg hb, if_neg (by omega)]

/-- A read after zeroing a range. -/
@[simp] theorem read_zeroRange (m : Memory) (lo n a : Nat) :
    (Memory.zeroRange m lo n).read a = if lo ≤ a ∧ a < lo + n then 0 else m.read a := by
  rw [Memory.zeroRange, read_filter (fun k => !(decide (lo ≤ k) && decide (k < lo + n)))]
  by_cases h : lo ≤ a ∧ a < lo + n
  · simp [h, Memory.unlisted]
  · rw [if_neg h, if_pos]
    simp only [Bool.not_eq_true', Bool.and_eq_false_iff, decide_eq_false_iff_not]
    omega

theorem read_ofBytesFrom (bs : List Byte) (lo a : Nat) :
    (Memory.ofBytesFrom lo bs).read a = if lo ≤ a then bs.getD (a - lo) 0 else 0 := by
  induction bs generalizing lo with
  | nil => simp [Memory.ofBytesFrom, Memory.unlisted]
  | cons b bs ih =>
    have key : (if lo ≤ a then (b :: bs).getD (a - lo) 0 else 0)
        = if lo = a then b else if lo + 1 ≤ a then bs.getD (a - (lo + 1)) 0 else 0 := by
      by_cases h : lo = a
      · subst h; simp
      · by_cases h1 : lo ≤ a
        · obtain ⟨d, rfl⟩ : ∃ d, a = lo + 1 + d := ⟨a - (lo + 1), by omega⟩
          rw [if_pos h1, if_neg h, if_pos (by omega), show lo + 1 + d - lo = d + 1 by omega,
            show lo + 1 + d - (lo + 1) = d by omega, List.getD_cons_succ]
        · rw [if_neg h1, if_neg h, if_neg (by omega)]
    rw [key, Memory.ofBytesFrom]
    split
    · next hb =>
      rw [ih]
      by_cases h : lo = a
      · subst h; simp [hb, Memory.unlisted]
      · simp [h]
    · rw [read_cons, ih]

/-- A read of a buffer filled from a list: the byte of the list where it has one below the capacity, 0 elsewhere. -/
theorem read_ofBytes (cap : Nat) (bs : List Byte) (a : Nat) :
    (Memory.ofBytes cap bs).read a = if a < cap then bs.getD a 0 else 0 := by
  rw [Memory.ofBytes, read_ofBytesFrom]
  by_cases h : a < cap
  · simp [h, List.getD_eq_getElem?_getD]
  · simp [h, List.getD_eq_getElem?_getD]

/-! ### The canonical form -/

theorem risingFrom_mono {lo lo' : Nat} (h : lo' ≤ lo) {m : Memory} (hm : Memory.risingFrom lo m = true) :
    Memory.risingFrom lo' m = true := by
  cases m with
  | nil => rfl
  | cons c m =>
    obtain ⟨k, b⟩ := c
    simp only [Memory.risingFrom, Bool.and_eq_true, decide_eq_true_eq] at hm ⊢
    exact ⟨by omega, hm.2⟩

theorem risingFrom_filter (q : Host.Cell → Bool) {m : Memory} {lo : Nat} (hm : Memory.risingFrom lo m = true) :
    Memory.risingFrom lo (m.filter q) = true := by
  induction m generalizing lo with
  | nil => rfl
  | cons c m ih =>
    obtain ⟨k, b⟩ := c
    simp only [Memory.risingFrom, Bool.and_eq_true, decide_eq_true_eq] at hm
    have tail := ih hm.2.2
    by_cases hq : q (k, b)
    · simp only [List.filter_cons_of_pos hq, Memory.risingFrom, Bool.and_eq_true, decide_eq_true_eq]
      exact ⟨hm.1, hm.2.1, tail⟩
    · rw [List.filter_cons_of_neg hq]
      exact risingFrom_mono (by omega) tail

theorem risingFrom_insert {m : Memory} {lo a : Nat} {v : Byte} (hm : Memory.risingFrom lo m = true) (ha : lo ≤ a)
    (hv : v ≠ Memory.unlisted) (h : ∀ c ∈ m, c.1 ≠ a) : Memory.risingFrom lo (Memory.insert m a v) = true := by
  induction m generalizing lo with
  | nil => simp [Memory.insert, Memory.risingFrom, ha, hv]
  | cons c m ih =>
    obtain ⟨k, b⟩ := c
    have hk : k ≠ a := h (k, b) (by simp)
    simp only [Memory.risingFrom, Bool.and_eq_true, decide_eq_true_eq] at hm
    by_cases hlt : a < k
    · simp only [Memory.insert, hlt, if_true, Memory.risingFrom, Bool.and_eq_true, decide_eq_true_eq, bne_iff_ne]
      exact ⟨ha, hv, by omega, by simpa using hm.2.1, hm.2.2⟩
    · simp only [Memory.insert, hlt, if_false, Memory.risingFrom, Bool.and_eq_true, decide_eq_true_eq]
      exact ⟨hm.1, hm.2.1, ih hm.2.2 (by omega) fun c hc => h c (by simp [hc])⟩

theorem mem_insert {m : Memory} {a : Nat} {v : Byte} {c : Host.Cell} (h : c ∈ Memory.insert m a v) :
    c = (a, v) ∨ c ∈ m := by
  induction m with
  | nil => simpa [Memory.insert] using h
  | cons d m ih =>
    obtain ⟨k, b⟩ := d
    rw [Memory.insert] at h
    split at h
    · simpa using h
    · rcases List.mem_cons.mp h with rfl | h
      · simp
      · rcases ih h with h | h <;> simp [h]

theorem wf_iff {cap : Nat} {m : Memory} :
    m.wf cap = true ↔ Memory.risingFrom 0 m = true ∧ ∀ c ∈ m, c.1 < cap := by
  simp [Memory.wf]

@[simp] theorem wf_nil (cap : Nat) : Memory.wf cap [] = true := rfl

theorem wf_filter {cap : Nat} {m : Memory} (q : Host.Cell → Bool) (hm : m.wf cap = true) :
    Memory.wf cap (m.filter q) = true := by
  rw [wf_iff] at hm ⊢
  exact ⟨risingFrom_filter q hm.1, fun c hc => hm.2 c (List.mem_of_mem_filter hc)⟩

theorem wf_erase {cap : Nat} {m : Memory} (a : Nat) (hm : m.wf cap = true) : (m.erase a).wf cap = true :=
  wf_filter _ hm

theorem wf_zeroRange {cap : Nat} {m : Memory} (lo n : Nat) (hm : m.wf cap = true) : (m.zeroRange lo n).wf cap = true :=
  wf_filter _ hm

theorem wf_write {cap : Nat} {m : Memory} {a : Nat} (v : Byte) (hm : m.wf cap = true) (ha : a < cap) :
    (m.write a v).wf cap = true := by
  have he := wf_erase a hm
  rw [Memory.write]
  split
  · exact he
  · next hv =>
    rw [wf_iff] at he ⊢
    refine ⟨risingFrom_insert he.1 (Nat.zero_le a) hv (absent_erase m a), fun c hc => ?_⟩
    rcases mem_insert hc with rfl | hc
    · exact ha
    · exact he.2 c hc

theorem wf_writeBytes {cap : Nat} (vs : List Byte) {m : Memory} {a : Nat} (hm : m.wf cap = true)
    (ha : a + vs.length ≤ cap) : (m.writeBytes a vs).wf cap = true := by
  induction vs generalizing m a with
  | nil => exact hm
  | cons v vs ih =>
    simp only [List.length_cons] at ha
    exact ih (wf_write v hm (by omega)) (by omega)

theorem risingFrom_ofBytesFrom (bs : List Byte) (lo : Nat) :
    Memory.risingFrom lo (Memory.ofBytesFrom lo bs) = true := by
  induction bs generalizing lo with
  | nil => rfl
  | cons b bs ih =>
    rw [Memory.ofBytesFrom]
    split
    · exact risingFrom_mono (Nat.le_succ lo) (ih _)
    · next hb => simp [Memory.risingFrom, hb, ih]

theorem mem_ofBytesFrom (bs : List Byte) (lo : Nat) {c : Host.Cell} (h : c ∈ Memory.ofBytesFrom lo bs) :
    c.1 < lo + bs.length := by
  induction bs generalizing lo with
  | nil => simp [Memory.ofBytesFrom] at h
  | cons b bs ih =>
    rw [Memory.ofBytesFrom] at h
    simp only [List.length_cons]
    split at h
    · have := ih _ h; omega
    · rcases List.mem_cons.mp h with rfl | h
      · simp
      · have := ih _ h; omega

theorem wf_ofBytes (cap : Nat) (bs : List Byte) : (Memory.ofBytes cap bs).wf cap = true := by
  rw [wf_iff]
  refine ⟨risingFrom_ofBytesFrom _ _, fun c hc => ?_⟩
  have := mem_ofBytesFrom _ _ hc
  simp only [List.length_take] at this
  omega

/-- The buffer of State.reset is in canonical form. -/
theorem reset_wf : State.reset.buf.wf State.reset.params.rawCapacity = true := rfl

end Sys2Proof.Laws
end

