-- ==== Sys2Proof/Laws/Operands.lean ====
section
/-!
SUPPORT. What the operand functions compute: bits of a bitmask byte and of a packed byte, padding, pixel masks and addresses, the
two bytes of a length.
-/

namespace Sys2Proof.Laws

open Sys2Proof.Machine

/-- `setBit` writes bit `i` and no other (R137). -/
theorem getLsbD_setBit (b : Byte) (i j : Nat) (v : Bool) (hi : i < 8) :
    (setBit b i v).getLsbD j = if j = i then v else b.getLsbD j := by
  by_cases hj : j < 8
  · interval_cases i <;> interval_cases j <;> cases v <;> simp [setBit]
  · rw [BitVec.getLsbD_of_ge _ _ (by omega), if_neg (by omega), BitVec.getLsbD_of_ge _ _ (by omega)]

/-- The high nibble of a packed byte is the speed (R94). -/
theorem spdMode_high (s : BitVec 3) (m : BitVec 4) : spdMode s m >>> 4 = s.setWidth 8 := by
  revert s m; decide

/-- The low nibble of a packed byte is the mode (R94). -/
theorem spdMode_low (s : BitVec 3) (m : BitVec 4) : (spdMode s m).extractLsb' 0 4 = m := by
  revert s m; decide

/-- Bit 7 of a packed byte is 0 (R94). -/
theorem spdMode_bit7 (s : BitVec 3) (m : BitVec 4) : (spdMode s m).getLsbD 7 = false := by
  revert s m; decide

/-- Padding never shortens, adds less than 64 bytes, and gives a multiple of 64 (R171). -/
theorem padLength_spec (r : Nat) : r ≤ padLength r ∧ padLength r < r + 64 ∧ padLength r % 64 = 0 := by
  unfold padLength roundUp padAlign
  omega

/-- A length within the limit stays within it when padded (R134, R172). -/
theorem padLength_le {r : Nat} (h : r ≤ 8192) : padLength r ≤ maxPayload := by
  unfold padLength roundUp padAlign maxPayload
  omega

/-- The two bytes of a length, high byte first, give the count back when it fits 16 bits (R52, R137). -/
theorem length_bytes (n : BitVec 19) (h : n.toNat ≤ 65535) :
    (n.extractLsb' 8 8).toNat * 256 + (n.extractLsb' 0 8).toNat = n.toNat := by
  simp only [BitVec.extractLsb'_toNat, Nat.shiftRight_eq_div_pow]
  omega

/-- The 16 bits of the view's width are the count when it fits them (R137). -/
theorem view_groups (n : BitVec 19) (h : n.toNat ≤ 65535) : (n.extractLsb' 0 16).toNat = n.toNat := by
  simp only [BitVec.extractLsb'_toNat, Nat.shiftRight_zero]
  omega

theorem pixInBounds_iff (g x y : Nat) : pixInBounds g x y = true ↔ y < 11 ∧ x < 8 * g := by
  unfold pixInBounds rowsPerGroup groupWidth
  simp

theorem pixInBounds_eq_false (g x y : Nat) : pixInBounds g x y = false ↔ 11 ≤ y ∨ 8 * g ≤ x := by
  unfold pixInBounds rowsPerGroup groupWidth
  simp
  omega

/-- An in-bounds pixel's byte lies in the view's region (R154). -/
theorem pixAddr_mem (base g x y : Nat) (hy : y < 11) (hx : x < 8 * g) :
    base ≤ pixAddr base x y ∧ pixAddr base x y < base + 11 * g := by
  unfold pixAddr groupWidth rowsPerGroup
  omega

/-- Two pixels with rows in bounds share a byte only in the same group and row (R58). -/
theorem pixAddr_inj (base x y x' y' : Nat) (hy : y < 11) (hy' : y' < 11) :
    pixAddr base x y = pixAddr base x' y' ↔ x / 8 = x' / 8 ∧ y = y' := by
  unfold pixAddr groupWidth rowsPerGroup
  omega

/-- `pix_mask(x)` is the bit 7 - (x mod 8) (R53, R151). -/
theorem getLsbD_pixMask (x j : Nat) : (pixMask x).getLsbD j = decide (j = 7 - x % 8) := by
  have hx := Nat.mod_lt x (show 8 > 0 by omega)
  unfold pixMask groupWidth
  generalize x % 8 = c at *
  by_cases hj : j < 8
  · interval_cases c <;> interval_cases j <;> rfl
  · rw [BitVec.getLsbD_of_ge _ _ (by omega)]
    simp
    omega

/-- A pixel is on when bit 7 - (x mod 8) of its byte is set (R58). -/
theorem and_pixMask (b : Byte) (x : Nat) : (b &&& pixMask x != 0) = b.getLsbD (7 - x % 8) := by
  have hx := Nat.mod_lt x (show 8 > 0 by omega)
  have e : pixMask x = (0x80 : Byte) >>> (x % 8) := rfl
  rw [e]
  clear e
  generalize x % 8 = c at *
  revert b
  interval_cases c <;> decide

/-- Writing a pixel's bit sets it to the value and leaves the other bits of the byte (R152, R155). -/
theorem getLsbD_pixWrite (old : Byte) (x j : Nat) (v : Bool) (hj : j < 8) :
    (pixWrite old x v).getLsbD j = if j = 7 - x % 8 then v else old.getLsbD j := by
  cases v <;> simp only [pixWrite, if_true, Bool.false_eq_true, if_false, BitVec.getLsbD_or, BitVec.getLsbD_and,
    BitVec.getLsbD_not, getLsbD_pixMask, hj] <;> by_cases h : j = 7 - x % 8 <;> simp [h]

/-- Writing a pixel's bit sets it to the value and leaves the other columns of the byte (R152, R155). -/
theorem pixWrite_and_mask (old : Byte) (x x' : Nat) (v : Bool) :
    (pixWrite old x v &&& pixMask x' != 0) = if x % 8 = x' % 8 then v else (old &&& pixMask x' != 0) := by
  rw [and_pixMask, and_pixMask, getLsbD_pixWrite _ _ _ _ (by omega)]
  by_cases h : x % 8 = x' % 8
  · rw [if_pos (by omega), if_pos h]
  · rw [if_neg (by omega), if_neg h]

end Sys2Proof.Laws
end

