-- ==== Sys2Proof/Laws/State.lean ====
section
/-!
SUPPORT. One lemma per field per named update of the state, true by rfl, so that no proof unfolds a record update; and one equation
per field of State.reset.
-/

namespace Sys2Proof.Laws

open Sys2Proof.Machine

variable (s : State)

/-! ### setLast -/

@[simp] theorem setLast_params (l : Last) : (s.setLast l).params = s.params := rfl
@[simp] theorem setLast_st (l : Last) : (s.setLast l).st = s.st := rfl
@[simp] theorem setLast_count (l : Last) : (s.setLast l).count = s.count := rfl
@[simp] theorem setLast_rawLen (l : Last) : (s.setLast l).rawLen = s.rawLen := rfl
@[simp] theorem setLast_padLen (l : Last) : (s.setLast l).padLen = s.padLen := rfl
@[simp] theorem setLast_last (l : Last) : (s.setLast l).last = l := rfl
@[simp] theorem setLast_fault (l : Last) : (s.setLast l).fault = s.fault := rfl
@[simp] theorem setLast_faultCmd (l : Last) : (s.setLast l).faultCmd = s.faultCmd := rfl
@[simp] theorem setLast_viewBase (l : Last) : (s.setLast l).viewBase = s.viewBase := rfl
@[simp] theorem setLast_viewGroups (l : Last) : (s.setLast l).viewGroups = s.viewGroups := rfl
@[simp] theorem setLast_buf (l : Last) : (s.setLast l).buf = s.buf := rfl
@[simp] theorem setLast_rtc (l : Last) : (s.setLast l).rtc = s.rtc := rfl
@[simp] theorem setLast_host (l : Last) : (s.setLast l).host = s.host := rfl

/-! ### setBuf -/

@[simp] theorem setBuf_params (m : Memory) : (s.setBuf m).params = s.params := rfl
@[simp] theorem setBuf_st (m : Memory) : (s.setBuf m).st = s.st := rfl
@[simp] theorem setBuf_count (m : Memory) : (s.setBuf m).count = s.count := rfl
@[simp] theorem setBuf_rawLen (m : Memory) : (s.setBuf m).rawLen = s.rawLen := rfl
@[simp] theorem setBuf_padLen (m : Memory) : (s.setBuf m).padLen = s.padLen := rfl
@[simp] theorem setBuf_last (m : Memory) : (s.setBuf m).last = s.last := rfl
@[simp] theorem setBuf_fault (m : Memory) : (s.setBuf m).fault = s.fault := rfl
@[simp] theorem setBuf_faultCmd (m : Memory) : (s.setBuf m).faultCmd = s.faultCmd := rfl
@[simp] theorem setBuf_viewBase (m : Memory) : (s.setBuf m).viewBase = s.viewBase := rfl
@[simp] theorem setBuf_viewGroups (m : Memory) : (s.setBuf m).viewGroups = s.viewGroups := rfl
@[simp] theorem setBuf_buf (m : Memory) : (s.setBuf m).buf = m := rfl
@[simp] theorem setBuf_rtc (m : Memory) : (s.setBuf m).rtc = s.rtc := rfl
@[simp] theorem setBuf_host (m : Memory) : (s.setBuf m).host = s.host := rfl

/-! ### setRtc -/

@[simp] theorem setRtc_params (t : Rtc) : (s.setRtc t).params = s.params := rfl
@[simp] theorem setRtc_st (t : Rtc) : (s.setRtc t).st = s.st := rfl
@[simp] theorem setRtc_count (t : Rtc) : (s.setRtc t).count = s.count := rfl
@[simp] theorem setRtc_rawLen (t : Rtc) : (s.setRtc t).rawLen = s.rawLen := rfl
@[simp] theorem setRtc_padLen (t : Rtc) : (s.setRtc t).padLen = s.padLen := rfl
@[simp] theorem setRtc_last (t : Rtc) : (s.setRtc t).last = s.last := rfl
@[simp] theorem setRtc_fault (t : Rtc) : (s.setRtc t).fault = s.fault := rfl
@[simp] theorem setRtc_faultCmd (t : Rtc) : (s.setRtc t).faultCmd = s.faultCmd := rfl
@[simp] theorem setRtc_viewBase (t : Rtc) : (s.setRtc t).viewBase = s.viewBase := rfl
@[simp] theorem setRtc_viewGroups (t : Rtc) : (s.setRtc t).viewGroups = s.viewGroups := rfl
@[simp] theorem setRtc_buf (t : Rtc) : (s.setRtc t).buf = s.buf := rfl
@[simp] theorem setRtc_rtc (t : Rtc) : (s.setRtc t).rtc = t := rfl
@[simp] theorem setRtc_host (t : Rtc) : (s.setRtc t).host = s.host := rfl

/-! ### setHost -/

@[simp] theorem setHost_params (l : List HostAct) : (s.setHost l).params = s.params := rfl
@[simp] theorem setHost_st (l : List HostAct) : (s.setHost l).st = s.st := rfl
@[simp] theorem setHost_count (l : List HostAct) : (s.setHost l).count = s.count := rfl
@[simp] theorem setHost_rawLen (l : List HostAct) : (s.setHost l).rawLen = s.rawLen := rfl
@[simp] theorem setHost_padLen (l : List HostAct) : (s.setHost l).padLen = s.padLen := rfl
@[simp] theorem setHost_last (l : List HostAct) : (s.setHost l).last = s.last := rfl
@[simp] theorem setHost_fault (l : List HostAct) : (s.setHost l).fault = s.fault := rfl
@[simp] theorem setHost_faultCmd (l : List HostAct) : (s.setHost l).faultCmd = s.faultCmd := rfl
@[simp] theorem setHost_viewBase (l : List HostAct) : (s.setHost l).viewBase = s.viewBase := rfl
@[simp] theorem setHost_viewGroups (l : List HostAct) : (s.setHost l).viewGroups = s.viewGroups := rfl
@[simp] theorem setHost_buf (l : List HostAct) : (s.setHost l).buf = s.buf := rfl
@[simp] theorem setHost_rtc (l : List HostAct) : (s.setHost l).rtc = s.rtc := rfl
@[simp] theorem setHost_host (l : List HostAct) : (s.setHost l).host = l := rfl

/-! ### raise -/

@[simp] theorem raise_params (c : Cause) (w : Word) : (s.raise c w).params = s.params := rfl
@[simp] theorem raise_st (c : Cause) (w : Word) : (s.raise c w).st = .faulted := rfl
@[simp] theorem raise_count (c : Cause) (w : Word) : (s.raise c w).count = s.count := rfl
@[simp] theorem raise_rawLen (c : Cause) (w : Word) : (s.raise c w).rawLen = s.rawLen := rfl
@[simp] theorem raise_padLen (c : Cause) (w : Word) : (s.raise c w).padLen = s.padLen := rfl
@[simp] theorem raise_last (c : Cause) (w : Word) : (s.raise c w).last = .fault := rfl
@[simp] theorem raise_fault (c : Cause) (w : Word) : (s.raise c w).fault = s.fault ||| causeBit c := rfl
@[simp] theorem raise_faultCmd (c : Cause) (w : Word) : (s.raise c w).faultCmd = w := rfl
@[simp] theorem raise_viewBase (c : Cause) (w : Word) : (s.raise c w).viewBase = s.viewBase := rfl
@[simp] theorem raise_viewGroups (c : Cause) (w : Word) : (s.raise c w).viewGroups = s.viewGroups := rfl
@[simp] theorem raise_buf (c : Cause) (w : Word) : (s.raise c w).buf = s.buf := rfl
@[simp] theorem raise_rtc (c : Cause) (w : Word) : (s.raise c w).rtc = s.rtc := rfl
@[simp] theorem raise_host (c : Cause) (w : Word) : (s.raise c w).host = s.host := rfl

/-! ### ignore -/

@[simp] theorem ignore_params : (s.ignore).params = s.params := rfl
@[simp] theorem ignore_st : (s.ignore).st = s.st := rfl
@[simp] theorem ignore_count : (s.ignore).count = s.count := rfl
@[simp] theorem ignore_rawLen : (s.ignore).rawLen = s.rawLen := rfl
@[simp] theorem ignore_padLen : (s.ignore).padLen = s.padLen := rfl
@[simp] theorem ignore_last : (s.ignore).last = .ignored := rfl
@[simp] theorem ignore_fault : (s.ignore).fault = s.fault := rfl
@[simp] theorem ignore_faultCmd : (s.ignore).faultCmd = s.faultCmd := rfl
@[simp] theorem ignore_viewBase : (s.ignore).viewBase = s.viewBase := rfl
@[simp] theorem ignore_viewGroups : (s.ignore).viewGroups = s.viewGroups := rfl
@[simp] theorem ignore_buf : (s.ignore).buf = s.buf := rfl
@[simp] theorem ignore_rtc : (s.ignore).rtc = s.rtc := rfl
@[simp] theorem ignore_host : (s.ignore).host = s.host := rfl

/-! ### assertReset -/

@[simp] theorem assertReset_params (bs : List Byte) : (s.assertReset bs).params = s.params := rfl
@[simp] theorem assertReset_st (bs : List Byte) : (s.assertReset bs).st = .idle := rfl
@[simp] theorem assertReset_count (bs : List Byte) : (s.assertReset bs).count = 0 := rfl
@[simp] theorem assertReset_rawLen (bs : List Byte) : (s.assertReset bs).rawLen = 0 := rfl
@[simp] theorem assertReset_padLen (bs : List Byte) : (s.assertReset bs).padLen = 0 := rfl
@[simp] theorem assertReset_last (bs : List Byte) : (s.assertReset bs).last = .ok := rfl
@[simp] theorem assertReset_fault (bs : List Byte) : (s.assertReset bs).fault = 0 := rfl
@[simp] theorem assertReset_faultCmd (bs : List Byte) : (s.assertReset bs).faultCmd = 0 := rfl
@[simp] theorem assertReset_viewBase (bs : List Byte) : (s.assertReset bs).viewBase = 0 := rfl
@[simp] theorem assertReset_viewGroups (bs : List Byte) : (s.assertReset bs).viewGroups = 0 := rfl
@[simp] theorem assertReset_buf (bs : List Byte) : (s.assertReset bs).buf = Memory.ofBytes s.params.rawCapacity bs := rfl
@[simp] theorem assertReset_rtc (bs : List Byte) : (s.assertReset bs).rtc = s.rtc := rfl
@[simp] theorem assertReset_host (bs : List Byte) : (s.assertReset bs).host = s.host := rfl

/-! ### openPayload -/

@[simp] theorem openPayload_params (brt : Byte) : (openPayload brt s).params = s.params := rfl
@[simp] theorem openPayload_st (brt : Byte) : (openPayload brt s).st = .building := rfl
@[simp] theorem openPayload_count (brt : Byte) : (openPayload brt s).count = 0 := rfl
@[simp] theorem openPayload_rawLen (brt : Byte) : (openPayload brt s).rawLen = BitVec.ofNat 32 (hdrLen s.params) := rfl
@[simp] theorem openPayload_padLen (brt : Byte) : (openPayload brt s).padLen = 0 := rfl
@[simp] theorem openPayload_last (brt : Byte) : (openPayload brt s).last = .ok := rfl
@[simp] theorem openPayload_fault (brt : Byte) : (openPayload brt s).fault = s.fault := rfl
@[simp] theorem openPayload_faultCmd (brt : Byte) : (openPayload brt s).faultCmd = s.faultCmd := rfl
@[simp] theorem openPayload_viewBase (brt : Byte) : (openPayload brt s).viewBase = BitVec.ofNat 32 (hdrLen s.params) := rfl
@[simp] theorem openPayload_viewGroups (brt : Byte) : (openPayload brt s).viewGroups = 0 := rfl
@[simp] theorem openPayload_buf (brt : Byte) : (openPayload brt s).buf = initHeader s.params brt s.rtc s.buf := rfl
@[simp] theorem openPayload_rtc (brt : Byte) : (openPayload brt s).rtc = s.rtc := rfl
@[simp] theorem openPayload_host (brt : Byte) : (openPayload brt s).host = s.host := rfl

/-! ### overwriteBrightness -/

@[simp] theorem overwriteBrightness_params (brt : Byte) : (overwriteBrightness brt s).params = s.params := rfl
@[simp] theorem overwriteBrightness_st (brt : Byte) : (overwriteBrightness brt s).st = s.st := rfl
@[simp] theorem overwriteBrightness_count (brt : Byte) : (overwriteBrightness brt s).count = s.count := rfl
@[simp] theorem overwriteBrightness_rawLen (brt : Byte) : (overwriteBrightness brt s).rawLen = s.rawLen := rfl
@[simp] theorem overwriteBrightness_padLen (brt : Byte) : (overwriteBrightness brt s).padLen = s.padLen := rfl
@[simp] theorem overwriteBrightness_last (brt : Byte) : (overwriteBrightness brt s).last = .ok := rfl
@[simp] theorem overwriteBrightness_fault (brt : Byte) : (overwriteBrightness brt s).fault = s.fault := rfl
@[simp] theorem overwriteBrightness_faultCmd (brt : Byte) : (overwriteBrightness brt s).faultCmd = s.faultCmd := rfl
@[simp] theorem overwriteBrightness_viewBase (brt : Byte) : (overwriteBrightness brt s).viewBase = s.viewBase := rfl
@[simp] theorem overwriteBrightness_viewGroups (brt : Byte) : (overwriteBrightness brt s).viewGroups = s.viewGroups := rfl
@[simp] theorem overwriteBrightness_buf (brt : Byte) : (overwriteBrightness brt s).buf = s.buf.write (offBrightness s.params) brt := rfl
@[simp] theorem overwriteBrightness_rtc (brt : Byte) : (overwriteBrightness brt s).rtc = s.rtc := rfl
@[simp] theorem overwriteBrightness_host (brt : Byte) : (overwriteBrightness brt s).host = s.host := rfl

/-! ### appendSlot -/

@[simp] theorem appendSlot_params (sty : Style) (n : BitVec 19) : (appendSlot sty n s).params = s.params := rfl
@[simp] theorem appendSlot_st (sty : Style) (n : BitVec 19) : (appendSlot sty n s).st = s.st := rfl
@[simp] theorem appendSlot_count (sty : Style) (n : BitVec 19) : (appendSlot sty n s).count = BitVec.ofNat 4 (s.count.toNat + 1) := rfl
@[simp] theorem appendSlot_rawLen (sty : Style) (n : BitVec 19) : (appendSlot sty n s).rawLen = BitVec.ofNat 32 (s.rawLen.toNat + groupBytes n.toNat) := rfl
@[simp] theorem appendSlot_padLen (sty : Style) (n : BitVec 19) : (appendSlot sty n s).padLen = s.padLen := rfl
@[simp] theorem appendSlot_last (sty : Style) (n : BitVec 19) : (appendSlot sty n s).last = .ok := rfl
@[simp] theorem appendSlot_fault (sty : Style) (n : BitVec 19) : (appendSlot sty n s).fault = s.fault := rfl
@[simp] theorem appendSlot_faultCmd (sty : Style) (n : BitVec 19) : (appendSlot sty n s).faultCmd = s.faultCmd := rfl
@[simp] theorem appendSlot_viewBase (sty : Style) (n : BitVec 19) : (appendSlot sty n s).viewBase = s.rawLen := rfl
@[simp] theorem appendSlot_viewGroups (sty : Style) (n : BitVec 19) : (appendSlot sty n s).viewGroups = n.extractLsb' 0 16 := rfl
@[simp] theorem appendSlot_buf (sty : Style) (n : BitVec 19) : (appendSlot sty n s).buf = 
    (slotHeader s.params s.count.toNat sty n s.buf).zeroRange s.rawLen.toNat (groupBytes n.toNat) := rfl
@[simp] theorem appendSlot_rtc (sty : Style) (n : BitVec 19) : (appendSlot sty n s).rtc = s.rtc := rfl
@[simp] theorem appendSlot_host (sty : Style) (n : BitVec 19) : (appendSlot sty n s).host = s.host := rfl

/-! ### writePixel -/

@[simp] theorem writePixel_params (a : Nat) (x : BitVec 23) (v : Bool) : (writePixel a x v s).params = s.params := rfl
@[simp] theorem writePixel_st (a : Nat) (x : BitVec 23) (v : Bool) : (writePixel a x v s).st = s.st := rfl
@[simp] theorem writePixel_count (a : Nat) (x : BitVec 23) (v : Bool) : (writePixel a x v s).count = s.count := rfl
@[simp] theorem writePixel_rawLen (a : Nat) (x : BitVec 23) (v : Bool) : (writePixel a x v s).rawLen = s.rawLen := rfl
@[simp] theorem writePixel_padLen (a : Nat) (x : BitVec 23) (v : Bool) : (writePixel a x v s).padLen = s.padLen := rfl
@[simp] theorem writePixel_last (a : Nat) (x : BitVec 23) (v : Bool) : (writePixel a x v s).last = .ok := rfl
@[simp] theorem writePixel_fault (a : Nat) (x : BitVec 23) (v : Bool) : (writePixel a x v s).fault = s.fault := rfl
@[simp] theorem writePixel_faultCmd (a : Nat) (x : BitVec 23) (v : Bool) : (writePixel a x v s).faultCmd = s.faultCmd := rfl
@[simp] theorem writePixel_viewBase (a : Nat) (x : BitVec 23) (v : Bool) : (writePixel a x v s).viewBase = s.viewBase := rfl
@[simp] theorem writePixel_viewGroups (a : Nat) (x : BitVec 23) (v : Bool) : (writePixel a x v s).viewGroups = s.viewGroups := rfl
@[simp] theorem writePixel_buf (a : Nat) (x : BitVec 23) (v : Bool) : (writePixel a x v s).buf = s.buf.write a (pixWrite (s.load a) x.toNat v) := rfl
@[simp] theorem writePixel_rtc (a : Nat) (x : BitVec 23) (v : Bool) : (writePixel a x v s).rtc = s.rtc := rfl
@[simp] theorem writePixel_host (a : Nat) (x : BitVec 23) (v : Bool) : (writePixel a x v s).host = s.host := rfl

/-! ### sealPayload -/

@[simp] theorem sealPayload_params : (sealPayload s).params = s.params := rfl
@[simp] theorem sealPayload_st : (sealPayload s).st = .finalized := rfl
@[simp] theorem sealPayload_count : (sealPayload s).count = s.count := rfl
@[simp] theorem sealPayload_rawLen : (sealPayload s).rawLen = s.rawLen := rfl
@[simp] theorem sealPayload_padLen : (sealPayload s).padLen = BitVec.ofNat 32 (padLength s.rawLen.toNat) := rfl
@[simp] theorem sealPayload_last : (sealPayload s).last = .ok := rfl
@[simp] theorem sealPayload_fault : (sealPayload s).fault = s.fault := rfl
@[simp] theorem sealPayload_faultCmd : (sealPayload s).faultCmd = s.faultCmd := rfl
@[simp] theorem sealPayload_viewBase : (sealPayload s).viewBase = s.viewBase := rfl
@[simp] theorem sealPayload_viewGroups : (sealPayload s).viewGroups = s.viewGroups := rfl
@[simp] theorem sealPayload_buf : (sealPayload s).buf = s.buf := rfl
@[simp] theorem sealPayload_rtc : (sealPayload s).rtc = s.rtc := rfl
@[simp] theorem sealPayload_host : (sealPayload s).host = s.host := rfl

/-! ### reset -/

@[simp] theorem reset_params : State.reset.params = decidedParams := rfl
@[simp] theorem reset_st : State.reset.st = .idle := rfl
@[simp] theorem reset_count : State.reset.count = 0 := rfl
@[simp] theorem reset_rawLen : State.reset.rawLen = 0 := rfl
@[simp] theorem reset_padLen : State.reset.padLen = 0 := rfl
@[simp] theorem reset_last : State.reset.last = .ok := rfl
@[simp] theorem reset_fault : State.reset.fault = 0 := rfl
@[simp] theorem reset_faultCmd : State.reset.faultCmd = 0 := rfl
@[simp] theorem reset_viewBase : State.reset.viewBase = 0 := rfl
@[simp] theorem reset_viewGroups : State.reset.viewGroups = 0 := rfl
@[simp] theorem reset_buf : State.reset.buf = [] := rfl
@[simp] theorem reset_rtc : State.reset.rtc = Rtc.zero := rfl
@[simp] theorem reset_host : State.reset.host = [] := rfl

end Sys2Proof.Laws
end

