-- ==== Sys2Proof/Laws/Commands.lean ====
section
/-!
SUPPORT. What the commands that write `BUF` leave at every address, byte by byte, and that they keep its canonical form.
-/

namespace Sys2Proof.Laws

open Sys2Proof.Machine

/-- The byte at every address after INIT's header writes (R112). -/
theorem read_initHeader (p : Params) (brt : Byte) (t : Rtc) (m : Memory) (a : Nat) :
    (initHeader p brt t m).read a =
      if offTimestamp p ≤ a ∧ a < offTimestamp p + 6 then (timestampBytes t).getD (a - offTimestamp p) 0
      else if a = offBrightness p then brt
      else if a < magicLen p then p.magic.getD a 0
      else if a < hdrLen p then 0
      else m.read a := by
  have hl : (timestampBytes t).length = 6 := rfl
  simp only [initHeader, read_writeBytes, hl, read_write, read_zeroRange, Nat.zero_le, true_and, Nat.zero_add, Nat.sub_zero]

/-- The byte at every address after ADDMSG's header writes for slot `i` (R137). -/
theorem read_slotHeader (p : Params) (i : Nat) (st : Style) (n : BitVec 19) (m : Memory) (a : Nat) :
    (slotHeader p i st n m).read a =
      if a = offLen p i + 1 then n.extractLsb' 0 8
      else if a = offLen p i then n.extractLsb' 8 8
      else if a = offSpdMode p i then spdMode st.speed st.mode
      else if a = offBorder p then setBit (m.read (offBorder p)) i st.border
      else if a = offBlink p then setBit (m.read (offBlink p)) i st.blink
      else m.read a := by
  have h : offBorder p ≠ offBlink p := by unfold offBorder offBlink; omega
  simp only [slotHeader, read_write, h, if_false]

theorem wf_initHeader (p : Params) (brt : Byte) (t : Rtc) {m : Memory} (hm : m.wf p.rawCapacity = true) :
    (initHeader p brt t m).wf p.rawCapacity = true := by
  have hp := p.hdrFits
  refine wf_writeBytes _ (wf_write _ (wf_writeBytes _ (wf_zeroRange _ _ hm) ?_) ?_) ?_
  · omega
  · unfold offBrightness magicLen; omega
  · show offTimestamp p + 6 ≤ _
    unfold offTimestamp magicLen
    omega

theorem wf_slotHeader (p : Params) {i : Nat} (hi : i < 16) (st : Style) (n : BitVec 19) {m : Memory}
    (hm : m.wf p.rawCapacity = true) : (slotHeader p i st n m).wf p.rawCapacity = true := by
  have hp := p.hdrFits
  refine wf_write _ (wf_write _ (wf_write _ (wf_write _ (wf_write _ hm ?_) ?_) ?_) ?_) ?_ <;>
    simp only [offBlink, offBorder, offSpdMode, offLen, magicLen] <;> omega

/-- The byte at every address after ADDMSG (R137). -/
theorem load_appendSlot (s : State) (st : Style) (n : BitVec 19) (a : Nat) :
    (appendSlot st n s).load a =
      if s.rawLen.toNat ≤ a ∧ a < s.rawLen.toNat + 11 * n.toNat then 0
      else (slotHeader s.params s.count.toNat st n s.buf).read a :=
  read_zeroRange _ _ _ _

/-- The byte at every address after INIT (R112). -/
theorem load_openPayload (s : State) (brt : Byte) (a : Nat) :
    (openPayload brt s).load a = (initHeader s.params brt s.rtc s.buf).read a := rfl

/-- The byte at every address after SETBRT (R116). -/
theorem load_overwriteBrightness (s : State) (brt : Byte) (a : Nat) :
    (overwriteBrightness brt s).load a = if a = offBrightness s.params then brt else s.load a :=
  read_write _ _ _ _

/-- The byte at every address after an in-bounds SETPIX (R152). -/
theorem load_writePixel (s : State) (b : Nat) (x : BitVec 23) (v : Bool) (a : Nat) :
    (writePixel b x v s).load a = if a = b then pixWrite (s.load b) x.toNat v else s.load a :=
  read_write _ _ _ _

@[simp] theorem load_setLast (s : State) (l : Last) (a : Nat) : (s.setLast l).load a = s.load a := rfl
@[simp] theorem load_setRtc (s : State) (t : Rtc) (a : Nat) : (s.setRtc t).load a = s.load a := rfl
@[simp] theorem load_setHost (s : State) (l : List HostAct) (a : Nat) : (s.setHost l).load a = s.load a := rfl
@[simp] theorem load_raise (s : State) (c : Cause) (w : Word) (a : Nat) : (s.raise c w).load a = s.load a := rfl
@[simp] theorem load_ignore (s : State) (a : Nat) : s.ignore.load a = s.load a := rfl
@[simp] theorem load_sealPayload (s : State) (a : Nat) : (sealPayload s).load a = s.load a := rfl

/-- The parameters never change. -/
theorem rejectWord_params (w : Word) (s : State) : (rejectWord w s).params = s.params := by
  unfold rejectWord; split <;> rfl

end Sys2Proof.Laws
end

