-- ==== Sys2Proof/Laws/Header.lean ====
section
/-!
SUPPORT. The header a list of messages asks for, byte by byte (R55), and what one more message changes of it.
-/

namespace Sys2Proof.Laws

open Sys2Proof.Machine Sys2Proof.Safety

/-! ### Bitmask bytes -/

theorem testBit_flags (l : List Bool) (j : Nat) :
    (l.foldr (fun (b : Bool) (n : Nat) => b.toNat + 2 * n) 0).testBit j = l.getD j false := by
  induction l generalizing j with
  | nil => simp
  | cons b l ih =>
    simp only [List.foldr_cons]
    cases j with
    | zero => cases b <;> simp [Nat.testBit_zero]
    | succ j =>
      rw [Nat.testBit_succ, List.getD_cons_succ, ← ih]
      congr 1
      cases b <;> simp <;> omega

/-- Bit `j` of a bitmask byte is the flag of slot `j` (R69). -/
theorem getLsbD_flagByte (l : List Bool) {j : Nat} (hj : j < 8) : (flagByte l).getLsbD j = l.getD j false := by
  unfold flagByte
  rw [BitVec.getLsbD_ofNat, testBit_flags]
  simp [hj]

/-- One more flag writes one bit (R137). -/
theorem flagByte_snoc (l : List Bool) (v : Bool) (h : l.length < 8) :
    flagByte (l ++ [v]) = setBit (flagByte l) l.length v := by
  apply BitVec.eq_of_getLsbD_eq
  intro j hj
  rw [getLsbD_flagByte _ hj, getLsbD_setBit _ _ _ _ h, getLsbD_flagByte _ hj]
  simp only [List.getD_eq_getElem?_getD, List.getElem?_append]
  split
  · rw [if_neg (by omega)]
  · by_cases h2 : j = l.length
    · simp [h2]
    · rw [if_neg h2, List.getElem?_eq_none (by simp; omega), List.getElem?_eq_none (by omega)]

/-! ### Slots -/

@[simp] theorem length_lengthBytes (l : List Message) (i : Nat) : (lengthBytes l i).length = 2 := by
  unfold lengthBytes
  split <;> rfl

theorem getElem?_snoc_of_ne (l : List Message) (x : Message) {i : Nat} (h : i ≠ l.length) : (l ++ [x])[i]? = l[i]? := by
  rw [List.getElem?_append]
  split
  · rfl
  · rw [List.getElem?_eq_none (show l.length ≤ i by omega), List.getElem?_eq_none (by simp; omega)]

theorem packedByte_snoc_of_ne (l : List Message) (x : Message) {i : Nat} (h : i ≠ l.length) :
    packedByte (l ++ [x]) i = packedByte l i := by
  unfold packedByte
  rw [getElem?_snoc_of_ne _ _ h]

theorem lengthBytes_snoc_of_ne (l : List Message) (x : Message) {i : Nat} (h : i ≠ l.length) :
    lengthBytes (l ++ [x]) i = lengthBytes l i := by
  unfold lengthBytes
  rw [getElem?_snoc_of_ne _ _ h]

theorem packedByte_snoc (l : List Message) (x : Message) :
    packedByte (l ++ [x]) l.length = spdMode x.style.speed x.style.mode := by
  simp [packedByte]

/-- The two bytes ADDMSG writes are those of its count (R52, R137). -/
theorem lengthBytes_snoc (l : List Message) (sty : Style) (n : BitVec 19) :
    lengthBytes (l ++ [⟨sty, n.toNat⟩]) l.length = [n.extractLsb' 8 8, n.extractLsb' 0 8] := by
  simp only [lengthBytes, List.getElem?_append, Nat.lt_irrefl, if_false, Nat.sub_self, List.getElem?_cons_zero]
  congr 1
  · apply BitVec.eq_of_toNat_eq
    simp [Nat.shiftRight_eq_div_pow]
  · congr 1
    apply BitVec.eq_of_toNat_eq
    simp

/-! ### The header -/

/-- The byte of the header at address `a` (R55). -/
def headerAt (p : Params) (brt : Byte) (t : Rtc) (msgs : List Message) (a : Nat) : Byte :=
  if a < magicLen p then p.magic.getD a 0
  else if a = offBrightness p then brt
  else if a = offBlink p then flagByte (msgs.map (·.style.blink))
  else if a = offBorder p then flagByte (msgs.map (·.style.border))
  else if a < offLen p 0 then packedByte msgs (a - offSpdMode p 0)
  else if a < offReserved1 p then (lengthBytes msgs ((a - offLen p 0) / 2)).getD ((a - offLen p 0) % 2) 0
  else if offTimestamp p ≤ a ∧ a < offTimestamp p + 6 then (timestampBytes t).getD (a - offTimestamp p) 0
  else 0

theorem getD_append (l r : List Byte) (a : Nat) :
    (l ++ r).getD a 0 = if a < l.length then l.getD a 0 else r.getD (a - l.length) 0 := by
  simp only [List.getD_eq_getElem?_getD, List.getElem?_append]
  split <;> rfl

theorem getD_zeros (n k : Nat) : (List.replicate n (0 : Byte)).getD k 0 = 0 := by
  simp only [List.getD_eq_getElem?_getD, List.getElem?_replicate]
  split <;> rfl

section
variable (p : Params) (brt : Byte) (t : Rtc) (msgs : List Message)

theorem length_lengths (q : Nat) : ((List.range q).flatMap (lengthBytes msgs)).length = 2 * q := by
  simp [List.length_flatMap, Nat.mul_comm]

theorem getD_lengths {q a : Nat} (ha : a < 2 * q) :
    ((List.range q).flatMap (lengthBytes msgs)).getD a 0 = (lengthBytes msgs (a / 2)).getD (a % 2) 0 := by
  induction q with
  | zero => omega
  | succ q ih =>
    rw [List.range_succ, List.flatMap_append, getD_append, length_lengths]
    split
    · next h => exact ih h
    · rw [show a / 2 = q by omega, show a - 2 * q = a % 2 by omega]
      simp

theorem length_renderHeader : (renderHeader p brt t msgs).length = hdrLen p := by
  unfold renderHeader
  simp [timestampBytes]

theorem getD_renderHeader {a : Nat} (ha : a < hdrLen p) :
    (renderHeader p brt t msgs).getD a 0 = headerAt p brt t msgs a := by
  have ht : (timestampBytes t).length = 6 := rfl
  unfold renderHeader headerAt
  simp only [getD_append, List.length_append, length_lengths, List.length_map, List.length_range, List.length_replicate,
    List.length_cons, List.length_nil, ht]
  simp only [magicLen, offBrightness, offBlink, offBorder, offLen, offSpdMode, offReserved1, offTimestamp, hdrLen] at *
  generalize p.magic.length = L at *
  by_cases h1 : a < L
  · simp (disch := omega) only [if_pos]
  by_cases h2 : a < L + 3
  · rw [if_neg h1, if_pos (by omega), if_pos (by omega), if_pos (by omega), if_pos (by omega), if_pos (by omega), if_neg h1]
    obtain ⟨d, rfl⟩ : ∃ d, a = L + d := ⟨a - L, by omega⟩
    have hd : d < 3 := by omega
    rw [show L + d - L = d by omega]
    interval_cases d <;> simp
  by_cases h3 : a < L + 11
  · simp (disch := omega) only [if_pos, if_neg]
    rw [List.getD_eq_getElem?_getD, List.getElem?_map, List.getElem?_range (by omega)]
    rfl
  by_cases h4 : a < L + 27
  · simp (disch := omega) only [if_pos, if_neg]
    rw [getD_lengths _ (by omega)]
  by_cases h5 : a < L + 33
  · simp (disch := omega) only [if_pos, if_neg, getD_zeros]
  by_cases h6 : a < L + 39
  · simp (disch := omega) only [if_pos, if_neg]
  · simp (disch := omega) only [if_pos, if_neg, getD_zeros]

end

/-- `HeaderIs`, byte by byte. -/
theorem headerIs_iff (s : State) (brt : Byte) (t : Rtc) (msgs : List Message) :
    HeaderIs s brt t msgs ↔
      (∀ a < hdrLen s.params, s.load a = headerAt s.params brt t msgs a) ∧ msgs.length = s.count.toNat := by
  unfold HeaderIs
  refine and_congr_left fun _ => ⟨fun h a ha => ?_, fun h => List.ext_getElem ?_ fun a h3 h4 => ?_⟩
  · rw [← getD_renderHeader _ _ _ _ ha, ← h]
    unfold State.headerBytes
    simp [List.getD_eq_getElem?_getD, List.getElem?_range ha]
  · rw [length_renderHeader]
    simp [State.headerBytes]
  · have ha : a < hdrLen s.params := length_renderHeader s.params brt t msgs ▸ h4
    have e := getD_renderHeader s.params brt t msgs ha
    rw [List.getD_eq_getElem?_getD, List.getElem?_eq_getElem h4, Option.getD_some] at e
    rw [e, ← h a ha]
    simp [State.headerBytes]

end Sys2Proof.Laws
end

