-- ==== Sys2Proof/Laws/Layout.lean ====
section
/-!
SUPPORT. The layout invariants of R41 under the operations: they depend on the header bytes and four registers alone, INIT
establishes them, and ADDMSG keeps them.
-/

namespace Sys2Proof.Laws

open Sys2Proof.Machine Sys2Proof.Safety

/-- The header fits the address registers (R30). -/
theorem hdrLen_lt (p : Params) : hdrLen p < 2 ^ 32 := by
  have := p.hdrFits
  have := p.capFits
  unfold hdrLen magicLen
  omega

section
variable {s t : State}

theorem slotLen_congr (hp : t.params = s.params) {i : Nat} (h0 : t.load (offLen s.params i) = s.load (offLen s.params i))
    (h1 : t.load (offLen s.params i + 1) = s.load (offLen s.params i + 1)) : t.slotLen i = s.slotLen i := by
  unfold State.slotLen
  rw [hp, h0, h1]

theorem lenSum_congr {k : Nat} (h : ∀ i < k, t.slotLen i = s.slotLen i) : t.lenSum k = s.lenSum k := by
  induction k with
  | zero => rfl
  | succ k ih =>
    simp only [State.lenSum]
    rw [ih fun i hi => h i (by omega), h k (by omega)]

theorem slotBase_congr (hp : t.params = s.params) {k : Nat} (h : ∀ i < k, t.slotLen i = s.slotLen i) :
    t.slotBase k = s.slotBase k := by
  unfold State.slotBase
  rw [hp, lenSum_congr h]

/-- `Layout` depends only on the parameters, four registers and the header bytes. -/
theorem layout_congr (hc8 : s.count.toNat ≤ 8) (hp : t.params = s.params) (hc : t.count = s.count)
    (hr : t.rawLen = s.rawLen) (hb : t.viewBase = s.viewBase) (hg : t.viewGroups = s.viewGroups)
    (hm : ∀ a < hdrLen s.params, t.load a = s.load a) (h : Layout s) : Layout t := by
  have hlen : ∀ i < 8, t.slotLen i = s.slotLen i := fun i hi =>
    slotLen_congr hp (hm _ (by simp only [hdrLen, offLen]; omega)) (hm _ (by simp only [hdrLen, offLen]; omega))
  have hspd : ∀ i < 8, t.spdModeByte i = s.spdModeByte i := fun i hi => by
    unfold State.spdModeByte
    rw [hp, hm _ (by simp only [hdrLen, offSpdMode]; omega)]
  have hbl : t.blinkByte = s.blinkByte := by
    unfold State.blinkByte
    rw [hp, hm _ (by simp only [hdrLen, offBlink]; omega)]
  have hbo : t.borderByte = s.borderByte := by
    unfold State.borderByte
    rw [hp, hm _ (by simp only [hdrLen, offBorder]; omega)]
  exact {
    magic := fun i hi => by
      rw [hp] at *
      rw [hm _ (by simp only [hdrLen, magicLen] at *; omega)]
      exact h.magic i hi
    brightness := by
      unfold State.brightnessByte
      rw [hp, hm _ (by simp only [hdrLen, offBrightness]; omega)]
      exact h.brightness
    reserved1 := fun j hj => by
      rw [hp, hm _ (by simp only [hdrLen, offReserved1]; omega)]
      exact h.reserved1 j hj
    reserved2 := fun j hj => by
      rw [hp, hm _ (by simp only [hdrLen, offReserved2]; omega)]
      exact h.reserved2 j hj
    unusedSlots := fun i hi hci => by
      rw [hlen i hi, hspd i hi, hbl, hbo]
      exact h.unusedSlots i hi (hc ▸ hci)
    packed := fun i hi => by
      rw [hspd i hi]
      exact h.packed i hi
    rawLength := by
      rw [hr, hp, hc, lenSum_congr fun i hi => hlen i (by omega)]
      exact h.rawLength
    inCapacity := by
      rw [hr, hp]
      exact h.inCapacity
    viewStart := by
      rw [hb, hp]
      exact h.viewStart
    viewEnd := by
      rw [hb, hg, hr]
      exact h.viewEnd
    viewLatest := fun h0 => by
      rw [hc] at h0 ⊢
      rw [hb, hg, hlen _ (by omega), slotBase_congr hp fun i hi => hlen i (by omega)]
      exact h.viewLatest h0 }

end

/-- INIT establishes the layout (R41, R112). -/
theorem layout_openPayload (s : State) {brt : Byte} (hb : brt ∈ brightnessCodes) : Layout (openPayload brt s) := by
  have hlt := hdrLen_lt s.params
  have rd := fun a => (load_openPayload s brt a).trans (read_initHeader _ _ _ _ a)
  have z : ∀ a, magicLen s.params < a → a < hdrLen s.params →
      ¬ (offTimestamp s.params ≤ a ∧ a < offTimestamp s.params + 6) → (openPayload brt s).load a = 0 := fun a h1 h2 h3 => by
    rw [rd, if_neg h3, if_neg (by simp only [offBrightness]; omega), if_neg (by omega), if_pos h2]
  have hlen : ∀ i < 8, (openPayload brt s).slotLen i = 0 := fun i hi => by
    unfold State.slotLen
    rw [openPayload_params,
      z _ (by simp only [offLen]; omega) (by simp only [hdrLen, offLen]; omega) (by simp only [offTimestamp, offLen]; omega),
      z _ (by simp only [offLen]; omega) (by simp only [hdrLen, offLen]; omega) (by simp only [offTimestamp, offLen]; omega)]
    rfl
  have hspd : ∀ i < 8, (openPayload brt s).spdModeByte i = 0 := fun i hi =>
    z _ (by simp only [offSpdMode, openPayload_params]; omega) (by simp only [hdrLen, offSpdMode, openPayload_params]; omega)
      (by simp only [offTimestamp, offSpdMode, openPayload_params]; omega)
  have hbl : (openPayload brt s).blinkByte = 0 :=
    z _ (by simp only [offBlink, openPayload_params]; omega) (by simp only [hdrLen, offBlink, openPayload_params]; omega)
      (by simp only [offTimestamp, offBlink, openPayload_params]; omega)
  have hbo : (openPayload brt s).borderByte = 0 :=
    z _ (by simp only [offBorder, openPayload_params]; omega) (by simp only [hdrLen, offBorder, openPayload_params]; omega)
      (by simp only [offTimestamp, offBorder, openPayload_params]; omega)
  have hr : (openPayload brt s).rawLen.toNat = hdrLen s.params := by
    simp only [openPayload_rawLen, BitVec.toNat_ofNat]
    exact Nat.mod_eq_of_lt hlt
  exact {
    magic := fun i hi => by
      simp only [openPayload_params, magicLen] at *
      rw [rd, if_neg (by simp only [offTimestamp, magicLen]; omega), if_neg (by simp only [offBrightness, magicLen]; omega),
        if_pos hi]
    brightness := by
      unfold State.brightnessByte
      rw [rd, openPayload_params, if_neg (by simp only [offTimestamp, offBrightness]; omega), if_pos rfl]
      exact hb
    reserved1 := fun j hj => by
      rw [openPayload_params]
      exact z _ (by simp only [offReserved1]; omega) (by simp only [hdrLen, offReserved1]; omega)
        (by simp only [offTimestamp, offReserved1]; omega)
    reserved2 := fun j hj => by
      rw [openPayload_params]
      exact z _ (by simp only [offReserved2]; omega) (by simp only [hdrLen, offReserved2]; omega)
        (by simp only [offTimestamp, offReserved2]; omega)
    unusedSlots := fun i hi _ => by simp [hlen i hi, hspd i hi, hbl, hbo]
    packed := fun i hi => by
      rw [hspd i hi]
      decide
    rawLength := by
      rw [hr]
      rfl
    inCapacity := by
      rw [hr]
      exact s.params.hdrFits
    viewStart := by
      simp only [openPayload_params, openPayload_viewBase, BitVec.toNat_ofNat]
      rw [Nat.mod_eq_of_lt hlt]
    viewEnd := by
      rw [hr]
      simp only [openPayload_viewBase, openPayload_viewGroups, BitVec.toNat_ofNat]
      rw [Nat.mod_eq_of_lt hlt]
      rfl
    viewLatest := fun h0 => absurd h0 (by simp) }

/-- A region ends where the next one starts (R54). -/
theorem slotBase_succ (s : State) (i : Nat) : s.slotBase (i + 1) = s.slotBase i + 11 * s.slotLen i := by
  unfold State.slotBase groupBytes rowsPerGroup
  rw [State.lenSum]
  omega

/-- Regions lie in the order of their slots (R54). -/
theorem slotBase_mono (s : State) {i j : Nat} (h : i ≤ j) : s.slotBase i ≤ s.slotBase j := by
  induction h with
  | refl => exact Nat.le_refl _
  | step _ ih =>
    rw [slotBase_succ]
    omega

section
variable (s : State) (sty : Style) (n : BitVec 19)

/-- ADDMSG's new length does not wrap (R9, R134). -/
theorem appendSlot_rawLen_toNat (hr : s.rawLen.toNat + 11 * n.toNat ≤ s.params.rawCapacity) :
    (appendSlot sty n s).rawLen.toNat = s.rawLen.toNat + 11 * n.toNat := by
  have := s.params.capFits
  simp only [appendSlot_rawLen, BitVec.toNat_ofNat]
  exact Nat.mod_eq_of_lt (by show s.rawLen.toNat + 11 * n.toNat < 2 ^ 32; omega)

theorem appendSlot_count_toNat (hc : s.count.toNat < 8) : (appendSlot sty n s).count.toNat = s.count.toNat + 1 := by
  simp only [appendSlot_count, BitVec.toNat_ofNat]
  omega

/-- The header bytes after ADDMSG (R137), where the new region lies above the header. -/
theorem load_appendSlot_header (hh : hdrLen s.params ≤ s.rawLen.toNat) {a : Nat} (ha : a < hdrLen s.params) :
    (appendSlot sty n s).load a =
      if a = offLen s.params s.count.toNat + 1 then n.extractLsb' 0 8
      else if a = offLen s.params s.count.toNat then n.extractLsb' 8 8
      else if a = offSpdMode s.params s.count.toNat then spdMode sty.speed sty.mode
      else if a = offBorder s.params then setBit s.borderByte s.count.toNat sty.border
      else if a = offBlink s.params then setBit s.blinkByte s.count.toNat sty.blink
      else s.load a := by
  rw [load_appendSlot, if_neg (by omega)]
  exact read_slotHeader _ _ _ _ _ a

/-- ADDMSG keeps the layout (R41, R137). -/
theorem layout_appendSlot (hc : s.count.toNat < 8) (hm : sty.mode.toNat ≤ 8) (hn : n.toNat ≤ 65535)
    (hr : s.rawLen.toNat + 11 * n.toNat ≤ s.params.rawCapacity) (h : Layout s) : Layout (appendSlot sty n s) := by
  have h1 := h.rawLength
  have hh : hdrLen s.params ≤ s.rawLen.toNat := by omega
  have hR := appendSlot_rawLen_toNat s sty n hr
  have hC := appendSlot_count_toNat s sty n hc
  have rd := fun a ha => load_appendSlot_header s sty n hh (a := a) ha
  have same : ∀ a < hdrLen s.params, a ≠ offLen s.params s.count.toNat + 1 → a ≠ offLen s.params s.count.toNat →
      a ≠ offSpdMode s.params s.count.toNat → a ≠ offBorder s.params → a ≠ offBlink s.params →
      (appendSlot sty n s).load a = s.load a := fun a ha q1 q2 q3 q4 q5 => by
    rw [rd a ha, if_neg q1, if_neg q2, if_neg q3, if_neg q4, if_neg q5]
  have slo : ∀ i < 8, i ≠ s.count.toNat → (appendSlot sty n s).slotLen i = s.slotLen i := fun i hi hne =>
    slotLen_congr (appendSlot_params ..)
      (same _ (by simp only [hdrLen, offLen]; omega) (by simp only [offLen]; omega) (by simp only [offLen]; omega)
        (by simp only [offLen, offSpdMode]; omega) (by simp only [offLen, offBorder]; omega)
        (by simp only [offLen, offBlink]; omega))
      (same _ (by simp only [hdrLen, offLen]; omega) (by simp only [offLen]; omega) (by simp only [offLen]; omega)
        (by simp only [offLen, offSpdMode]; omega) (by simp only [offLen, offBorder]; omega)
        (by simp only [offLen, offBlink]; omega))
  have sln : (appendSlot sty n s).slotLen s.count.toNat = n.toNat := by
    unfold State.slotLen
    rw [appendSlot_params, rd _ (by simp only [hdrLen, offLen]; omega), rd _ (by simp only [hdrLen, offLen]; omega),
      if_neg (by omega), if_pos rfl, if_pos rfl]
    exact length_bytes n hn
  have spo : ∀ i < 8, i ≠ s.count.toNat → (appendSlot sty n s).spdModeByte i = s.spdModeByte i := fun i hi hne => by
    unfold State.spdModeByte
    rw [appendSlot_params]
    exact same _ (by simp only [hdrLen, offSpdMode]; omega) (by simp only [offLen, offSpdMode]; omega)
      (by simp only [offLen, offSpdMode]; omega) (by simp only [offSpdMode]; omega)
      (by simp only [offSpdMode, offBorder]; omega) (by simp only [offSpdMode, offBlink]; omega)
  have spn : (appendSlot sty n s).spdModeByte s.count.toNat = spdMode sty.speed sty.mode := by
    unfold State.spdModeByte
    rw [appendSlot_params, rd _ (by simp only [hdrLen, offSpdMode]; omega), if_neg (by simp only [offLen, offSpdMode]; omega),
      if_neg (by simp only [offLen, offSpdMode]; omega), if_pos rfl]
  have bl : (appendSlot sty n s).blinkByte = setBit s.blinkByte s.count.toNat sty.blink := by
    unfold State.blinkByte
    rw [appendSlot_params, rd _ (by simp only [hdrLen, offBlink]; omega), if_neg (by simp only [offLen, offBlink]; omega),
      if_neg (by simp only [offLen, offBlink]; omega), if_neg (by simp only [offSpdMode, offBlink]; omega),
      if_neg (by simp only [offBorder, offBlink]; omega), if_pos rfl]
    rfl
  have bo : (appendSlot sty n s).borderByte = setBit s.borderByte s.count.toNat sty.border := by
    unfold State.borderByte
    rw [appendSlot_params, rd _ (by simp only [hdrLen, offBorder]; omega), if_neg (by simp only [offLen, offBorder]; omega),
      if_neg (by simp only [offLen, offBorder]; omega), if_neg (by simp only [offSpdMode, offBorder]; omega), if_pos rfl]
    rfl
  have other : ∀ a, a < magicLen s.params + 1 ∨ magicLen s.params + 27 ≤ a → a < hdrLen s.params →
      (appendSlot sty n s).load a = s.load a := fun a h1 h2 =>
    same a h2 (by simp only [offLen]; omega) (by simp only [offLen]; omega) (by simp only [offSpdMode]; omega)
      (by simp only [offBorder]; omega) (by simp only [offBlink]; omega)
  exact {
    magic := fun i hi => by
      rw [appendSlot_params] at *
      rw [other _ (by omega) (by simp only [hdrLen]; omega)]
      exact h.magic i hi
    brightness := by
      unfold State.brightnessByte
      rw [appendSlot_params, other _ (by simp only [offBrightness]; omega) (by simp only [hdrLen, offBrightness]; omega)]
      exact h.brightness
    reserved1 := fun j hj => by
      rw [appendSlot_params, other _ (by simp only [offReserved1]; omega) (by simp only [hdrLen, offReserved1]; omega)]
      exact h.reserved1 j hj
    reserved2 := fun j hj => by
      rw [appendSlot_params, other _ (by simp only [offReserved2]; omega) (by simp only [hdrLen, offReserved2]; omega)]
      exact h.reserved2 j hj
    unusedSlots := fun i hi hci => by
      rw [slo i hi (by omega), spo i hi (by omega), bl, bo, getLsbD_setBit _ _ _ _ hc, getLsbD_setBit _ _ _ _ hc,
        if_neg (by omega), if_neg (by omega)]
      exact h.unusedSlots i hi (by omega)
    packed := fun i hi => by
      by_cases hne : i = s.count.toNat
      · rw [hne, spn]
        exact ⟨spdMode_bit7 _ _, by rw [spdMode_low]; exact hm⟩
      · rw [spo i hi hne]
        exact h.packed i hi
    rawLength := by
      rw [hR, hC, State.lenSum, sln, appendSlot_params, lenSum_congr fun i hi => slo i (by omega) (by omega)]
      omega
    inCapacity := by
      rw [hR]
      exact hr
    viewStart := hh
    viewEnd := by
      rw [hR]
      simp only [appendSlot_viewBase, appendSlot_viewGroups, view_groups n hn]
    viewLatest := fun _ => by
      rw [hC, Nat.add_sub_cancel, sln, slotBase_congr (appendSlot_params ..) fun i hi => slo i (by omega) (by omega)]
      exact ⟨h1, view_groups n hn⟩ }

end

end Sys2Proof.Laws
end

