-- ==== Sys2Proof/Laws/PerInstr.lean ====
section
/-!
SUPPORT. The family LegalEncoding, one lemma per command: the word of a command passes `encoding_ok` (R89) exactly when the command
is well-formed.
-/

/-- `encoding_ok` of the command's word says whether the command is well-formed (R89). -/
def Sys2Proof.Laws.LegalEncoding.Statement (i : Sys2Proof.Instr) : Prop :=
  Sys2Proof.encodingOk (Sys2Proof.encode i) = Sys2Proof.wellFormed i

namespace Sys2Proof.Laws.LegalEncoding

theorem nop : Statement .nop := by unfold Statement; decide

theorem init (brt : BitVec 8) : Statement (.init brt) := by
  unfold Statement
  simp only [encodingOk, opField_init, rsvd_init, brt_init, wellFormed, brightnessCodes]
  rfl

theorem setbrt (brt : BitVec 8) : Statement (.setbrt brt) := by
  unfold Statement
  simp only [encodingOk, opField_setbrt, rsvd_setbrt, brt_setbrt, wellFormed, brightnessCodes]
  rfl

theorem addmsg (blk brd : Bool) (spd : BitVec 3) (mode : BitVec 4) (ngrp : BitVec 19) :
    Statement (.addmsg blk brd spd mode ngrp) := by
  unfold Statement
  simp only [encodingOk, opField_addmsg, mode_addmsg, wellFormed]
  rfl

theorem setpix (v : Bool) (y : BitVec 4) (x : BitVec 23) : Statement (.setpix v y x) := by
  unfold Statement
  simp only [encodingOk, opField_setpix, wellFormed]
  rfl

theorem final : Statement .final := by unfold Statement; decide

end Sys2Proof.Laws.LegalEncoding
end

