-- ==== Sys2Proof/Laws/Ops.lean ====
section
/-!
SUPPORT. What the common dispatch (R202) and one step can do, said once: the four ways a command ends, and the inversion of `exec`
and `step`.
-/

namespace Sys2Proof.Laws

open Sys2Proof.Machine

/-- The word of a command passes `encoding_ok` exactly when the command is well-formed (R89). -/
theorem encodingOk_encode (i : Instr) : encodingOk (encode i) = wellFormed i := by
  cases i with
  | nop => exact LegalEncoding.nop
  | init brt => exact LegalEncoding.init brt
  | setbrt brt => exact LegalEncoding.setbrt brt
  | addmsg blk brd spd mode ngrp => exact LegalEncoding.addmsg blk brd spd mode ngrp
  | setpix v y x => exact LegalEncoding.setpix v y x
  | final => exact LegalEncoding.final

/-- No command is in the legal-state table for FAULTED (R201, R204). -/
theorem legalState_faulted (i : Instr) : legalState i .faulted = false := by
  cases i <;> rfl

section
variable {i : Instr} {body : State → Host.Outcome State Fault Refusal} {s : State}

theorem runCommand_faulted (h : s.st = .faulted) : runCommand i body s = .next s.ignore := by
  simp [runCommand, h]

theorem runCommand_illegal (h : s.st ≠ .faulted) (hw : wellFormed i = false) :
    runCommand i body s = .next (s.raise .illegal (encode i)) := by
  simp [runCommand, h, encodingOk_encode, hw]

theorem runCommand_sequence (h : s.st ≠ .faulted) (hw : wellFormed i = true) (hl : legalState i s.st = false) :
    runCommand i body s = .next (s.raise .sequence (encode i)) := by
  simp [runCommand, h, encodingOk_encode, hw, hl]

theorem runCommand_legal (hw : wellFormed i = true) (hl : legalState i s.st = true) : runCommand i body s = body s := by
  have h : s.st ≠ .faulted := by
    intro h
    rw [h, legalState_faulted] at hl
    cases hl
  simp [runCommand, h, encodingOk_encode, hw, hl]

end

/-- The effect of a command once the dispatch has passed. -/
def effect (i : Instr) (s : State) : Host.Outcome State Fault Refusal :=
  match i with
  | .nop => .next (s.setLast .ok)
  | .init brt => .next (openPayload brt s)
  | .setbrt brt => .next (overwriteBrightness brt s)
  | .addmsg blk brd spd mode ngrp =>
    if s.count.toNat = maxSlots then .next (s.raise .slotsFull (encode i))
    else if maxGroups < ngrp.toNat then .next (s.raise .lenOverflow (encode i))
    else if s.params.rawCapacity < s.rawLen.toNat + groupBytes ngrp.toNat then .next (s.raise .capacity (encode i))
    else .next (appendSlot ⟨blk, brd, spd, mode⟩ ngrp s)
  | .setpix v y x =>
    if pixInBounds s.viewGroups.toNat x.toNat y.toNat = false then .next (s.setLast .oob)
    else if viewPixAddr s x y < s.params.rawCapacity then .next (writePixel (viewPixAddr s x y) x v s)
    else .fault (.outsideBuf (viewPixAddr s x y))
  | .final =>
    if maxPayload < padLength s.rawLen.toNat then .next (s.raise .size (encode i)) else .next (sealPayload s)

/-- Every command is its effect behind the common dispatch (R202). -/
theorem exec_eq (i : Instr) (s : State) : exec i s = runCommand i (effect i) s := by
  cases i <;> rfl

/-- In its legal states a well-formed command is its effect. -/
theorem exec_legal {i : Instr} {s : State} (hw : wellFormed i = true) (hl : legalState i s.st = true) :
    exec i s = effect i s := by
  rw [exec_eq, runCommand_legal hw hl]

/-- What a command that answers a next state can have done, with the guard of each case (R202 and the command rules). -/
inductive Does (s : State) : Instr → State → Prop
  | ignored (i : Instr) (hf : s.st = .faulted) : Does s i s.ignore
  | illegal (i : Instr) (hf : s.st ≠ .faulted) (hw : wellFormed i = false) : Does s i (s.raise .illegal (encode i))
  | sequence (i : Instr) (hf : s.st ≠ .faulted) (hw : wellFormed i = true) (hl : legalState i s.st = false) :
      Does s i (s.raise .sequence (encode i))
  | nop (hf : s.st ≠ .faulted) : Does s .nop (s.setLast .ok)
  | init (brt : BitVec 8) (hst : s.st = .idle ∨ s.st = .finalized) (hb : brt ∈ brightnessCodes) :
      Does s (.init brt) (openPayload brt s)
  | setbrt (brt : BitVec 8) (hst : s.st = .building) (hb : brt ∈ brightnessCodes) :
      Does s (.setbrt brt) (overwriteBrightness brt s)
  | slotsFull (sty : Style) (n : BitVec 19) (hst : s.st = .building) (hm : sty.mode.toNat ≤ 8) (hc : s.count.toNat = 8) :
      Does s (.addmsg sty.blink sty.border sty.speed sty.mode n)
        (s.raise .slotsFull (encode (.addmsg sty.blink sty.border sty.speed sty.mode n)))
  | lenOverflow (sty : Style) (n : BitVec 19) (hst : s.st = .building) (hm : sty.mode.toNat ≤ 8) (hc : s.count.toNat ≠ 8)
      (hn : 65535 < n.toNat) :
      Does s (.addmsg sty.blink sty.border sty.speed sty.mode n)
        (s.raise .lenOverflow (encode (.addmsg sty.blink sty.border sty.speed sty.mode n)))
  | capacity (sty : Style) (n : BitVec 19) (hst : s.st = .building) (hm : sty.mode.toNat ≤ 8) (hc : s.count.toNat ≠ 8)
      (hn : n.toNat ≤ 65535) (hr : s.params.rawCapacity < s.rawLen.toNat + 11 * n.toNat) :
      Does s (.addmsg sty.blink sty.border sty.speed sty.mode n)
        (s.raise .capacity (encode (.addmsg sty.blink sty.border sty.speed sty.mode n)))
  | addmsg (sty : Style) (n : BitVec 19) (hst : s.st = .building) (hm : sty.mode.toNat ≤ 8) (hc : s.count.toNat ≠ 8)
      (hn : n.toNat ≤ 65535) (hr : s.rawLen.toNat + 11 * n.toNat ≤ s.params.rawCapacity) :
      Does s (.addmsg sty.blink sty.border sty.speed sty.mode n) (appendSlot sty n s)
  | oob (v : Bool) (y : BitVec 4) (x : BitVec 23) (hst : s.st = .building)
      (ho : 11 ≤ y.toNat ∨ 8 * s.viewGroups.toNat ≤ x.toNat) : Does s (.setpix v y x) (s.setLast .oob)
  | setpix (v : Bool) (y : BitVec 4) (x : BitVec 23) (hst : s.st = .building) (hy : y.toNat < 11)
      (hx : x.toNat < 8 * s.viewGroups.toNat) (ha : viewPixAddr s x y < s.params.rawCapacity) :
      Does s (.setpix v y x) (writePixel (viewPixAddr s x y) x v s)
  | size (hst : s.st = .building) (hp : 8192 < padLength s.rawLen.toNat) : Does s .final (s.raise .size (encode .final))
  | final (hst : s.st = .building) (hp : padLength s.rawLen.toNat ≤ 8192) : Does s .final (sealPayload s)

/-- The inversion of `exec`: a command that answers a next state did one of the cases of `Does`. -/
theorem exec_does {i : Instr} {s t : State} (h : exec i s = .next t) : Does s i t := by
  rw [exec_eq] at h
  by_cases hf : s.st = .faulted
  · rw [runCommand_faulted hf] at h
    cases h
    exact .ignored i hf
  cases hw : wellFormed i with
  | false =>
    rw [runCommand_illegal hf hw] at h
    cases h
    exact .illegal i hf hw
  | true =>
    cases hl : legalState i s.st with
    | false =>
      rw [runCommand_sequence hf hw hl] at h
      cases h
      exact .sequence i hf hw hl
    | true =>
      rw [runCommand_legal hw hl] at h
      cases i with
      | nop => cases h; exact .nop hf
      | init brt =>
        cases h
        exact .init brt (by simpa [legalState] using hl) (by simpa [wellFormed] using hw)
      | setbrt brt =>
        cases h
        exact .setbrt brt (by simpa [legalState] using hl) (by simpa [wellFormed] using hw)
      | addmsg blk brd spd mode ngrp =>
        have hst : s.st = .building := by simpa [legalState] using hl
        have hm : mode.toNat ≤ 8 := by simpa [wellFormed] using hw
        simp only [effect] at h
        split at h
        · next hc => cases h; exact .slotsFull ⟨blk, brd, spd, mode⟩ ngrp hst hm hc
        · next hc =>
          split at h
          · next hn => cases h; exact .lenOverflow ⟨blk, brd, spd, mode⟩ ngrp hst hm hc hn
          · next hn =>
            split at h
            · next hr => cases h; exact .capacity ⟨blk, brd, spd, mode⟩ ngrp hst hm hc (Nat.not_lt.mp hn) hr
            · next hr => cases h; exact .addmsg ⟨blk, brd, spd, mode⟩ ngrp hst hm hc (Nat.not_lt.mp hn) (Nat.not_lt.mp hr)
      | setpix v y x =>
        have hst : s.st = .building := by simpa [legalState] using hl
        simp only [effect] at h
        split at h
        · next ho =>
          cases h
          exact .oob v y x hst ((pixInBounds_eq_false _ _ _).mp ho)
        · next ho =>
          have hb := (pixInBounds_iff _ _ _).mp (Bool.not_eq_false _ ▸ ho)
          split at h
          · next ha => cases h; exact .setpix v y x hst hb.1 hb.2 ha
          · cases h
      | final =>
        have hst : s.st = .building := by simpa [legalState] using hl
        simp only [effect] at h
        split at h
        · next hp => cases h; exact .size hst hp
        · next hp => cases h; exact .final hst (Nat.not_lt.mp hp)

/-- A command stops only as a SETPIX whose byte address lies outside `BUF`. -/
theorem exec_fault {i : Instr} {s : State} {f : Fault} (h : exec i s = .fault f) :
    ∃ v y x, i = .setpix v y x ∧ s.st = .building ∧ y.toNat < 11 ∧ x.toNat < 8 * s.viewGroups.toNat ∧
      f = .outsideBuf (viewPixAddr s x y) ∧ s.params.rawCapacity ≤ viewPixAddr s x y := by
  rw [exec_eq] at h
  by_cases hf : s.st = .faulted
  · rw [runCommand_faulted hf] at h
    cases h
  cases hw : wellFormed i with
  | false => rw [runCommand_illegal hf hw] at h; cases h
  | true =>
    cases hl : legalState i s.st with
    | false => rw [runCommand_sequence hf hw hl] at h; cases h
    | true =>
      rw [runCommand_legal hw hl] at h
      cases i with
      | nop => cases h
      | init brt => cases h
      | setbrt brt => cases h
      | addmsg blk brd spd mode ngrp =>
        simp only [effect] at h
        split at h
        · cases h
        · split at h
          · cases h
          · split at h <;> cases h
      | setpix v y x =>
        simp only [effect] at h
        split at h
        · cases h
        · next ho =>
          have hb := (pixInBounds_iff _ _ _).mp (Bool.not_eq_false _ ▸ ho)
          split at h
          · cases h
          · next ha =>
            cases h
            exact ⟨v, y, x, rfl, by simpa [legalState] using hl, hb.1, hb.2, rfl, by omega⟩
      | final =>
        simp only [effect] at h
        split at h <;> cases h

/-- No command is refused. -/
theorem exec_not_refused (i : Instr) (s : State) (r : Refusal) : exec i s ≠ .refused r := by
  intro h
  rw [exec_eq] at h
  by_cases hf : s.st = .faulted
  · rw [runCommand_faulted hf] at h; cases h
  cases hw : wellFormed i with
  | false => rw [runCommand_illegal hf hw] at h; cases h
  | true =>
    cases hl : legalState i s.st with
    | false => rw [runCommand_sequence hf hw hl] at h; cases h
    | true =>
      rw [runCommand_legal hw hl] at h
      cases i <;> simp only [effect] at h <;> (repeat' split at h) <;> cases h

/-- What a step that answers a next state can have done (R20). -/
theorem step_cases {s t : State} (h : step s = .next t) :
    (s.host = [] ∧ t = s) ∨
    (∃ bs rest, s.host = .reset bs :: rest ∧ t = (s.setHost rest).assertReset bs) ∨
    (∃ w c rest i, s.host = .command w c :: rest ∧ decode w = .ok i ∧ Does ((s.setHost rest).setRtc c) i t) ∨
    (∃ w c rest e, s.host = .command w c :: rest ∧ decode w = .error e ∧
      t = rejectWord w ((s.setHost rest).setRtc c)) := by
  unfold step at h
  split at h
  · next hh => cases h; exact .inl ⟨hh, rfl⟩
  · next a rest hh =>
    cases a with
    | reset bs => cases h; exact .inr (.inl ⟨bs, rest, hh, rfl⟩)
    | command w c =>
      simp only [hostAction, issueWord] at h
      split at h
      · next i hd => exact .inr (.inr (.inl ⟨w, c, rest, i, hh, hd, exec_does h⟩))
      · next e hd => cases h; exact .inr (.inr (.inr ⟨w, c, rest, e, hh, hd, rfl⟩))

end Sys2Proof.Laws
end

