-- ==== Sys2Proof/Tests/Slice0.lean ====
section
/-!
SUPPORT. Tests of the model. Expected values are those of spec/95_test_vectors.md (vector and program names V-…, P…, S…), of R99, or
worked by hand from the rule named; the last part shows, for each statement with hypotheses, that concrete data meet them.
-/

namespace Sys2Proof.Tests

open Sys2Proof.Machine Sys2Proof.Safety

/-! ### Helpers -/

/-- The state a step or command answers, or the given one where it stops. -/
def stateOr (s : State) : Host.Outcome State Fault Refusal → State
  | .next t => t
  | .fault _ => s
  | .refused _ => s

/-- The state after some command words. -/
def run (s : State) (ws : List Word) : State := ws.foldl (fun s w => stateOr s (issueWord w s)) s

/-- 2024-05-17 13:45:09, the time of the test vectors. -/
def may17 : Rtc := ⟨2024, 5, 17, 13, 45, 9⟩

/-- R of the test vectors: reset. -/
def stR : State := State.reset.setRtc may17

/-- B0: after `INIT brt=0x00`. -/
def stB0 : State := run stR [0x10000000]

/-- B1: B0 and a message of one column group. -/
def stB1 : State := run stB0 [0x30000001]

/-- B1 and a second message of one column group. -/
def stB2 : State := run stB1 [0x30000001]

/-- F1: B1 and FINAL. -/
def stF1 : State := run stB1 [0x50000000]

/-- After V-FLT-1: an illegal encoding latched from reset. -/
def stX : State := run stR [0x60000000]

/-- A FAULTED state in which a payload had been sealed (V-BRT-5). -/
def stX1 : State := run stF1 [0x20000010]

/-- 16384 bytes of storage (V-FINAL-7). -/
def largeParams : Params := ⟨magicBytes, 16384, by decide, by decide⟩

/-- Reset with 16384 bytes of storage. -/
def stLarge : State := { stR with params := largeParams }

/-- The host issues one word next, and then has `rest` to do. -/
def issuing (s : State) (w : Word) (rest : List HostAct) : State := s.setHost (.command w may17 :: rest)

/-! ### Well-formedness (R89) -/

theorem test_wf_accepts : wellFormed (.init 0x30) = true ∧ wellFormed (.setbrt 0x10) = true ∧
    wellFormed (.addmsg true true 7 8 524287) = true ∧ wellFormed (.setpix true 15 8388607) = true := by decide

theorem test_wf_refuses_init : wellFormed (.init 0x08) = false ∧ wellFormed (.init 0x40) = false := by decide

theorem test_wf_refuses_setbrt : wellFormed (.setbrt 0x31) = false ∧ wellFormed (.setbrt 0xFF) = false := by decide

theorem test_wf_refuses_mode : wellFormed (.addmsg false false 0 9 1) = false ∧
    wellFormed (.addmsg false false 7 15 1) = false := by decide

/-! ### Decoding: words written out from the formats of R82 to R85 -/

theorem test_decode_nop : decode 0b0000_0000000000000000000000000000 = .ok .nop := by rfl

theorem test_decode_init : decode 0b0001_00000000000000000000_00100000 = .ok (.init 0x20) := by rfl

theorem test_decode_setbrt : decode 0b0010_00000000000000000000_00110000 = .ok (.setbrt 0x30) := by rfl

theorem test_decode_addmsg :
    decode 0b0011_1_0_101_0110_0000000000000000011 = .ok (.addmsg true false 5 6 3) := by rfl

theorem test_decode_setpix : decode 0b0100_1_1010_00000000000000000001011 = .ok (.setpix true 10 11) := by rfl

theorem test_decode_final : decode 0b0101_0000000000000000000000000000 = .ok .final := by rfl

theorem test_decode_refuses : decode 0x60000000 = .error .reservedOpcode ∧ decode 0xF0000000 = .error .reservedOpcode ∧
    decode 0x00000001 = .error .reservedField ∧ decode 0x10000110 = .error .reservedField ∧
    decode 0x28000010 = .error .reservedField ∧ decode 0x50000001 = .error .reservedField :=
  ⟨rfl, rfl, rfl, rfl, rfl, rfl⟩

/-- Every field at its largest value (R84, R85). -/
theorem test_decode_largest : decode 0x3FFFFFFF = .ok (.addmsg true true 7 15 524287) ∧
    decode 0x4FFFFFFF = .ok (.setpix true 15 8388607) := ⟨rfl, rfl⟩

theorem test_encodingOk : encodingOk 0x10000030 = true ∧ encodingOk 0x10000008 = false ∧ encodingOk 0x10000110 = false ∧
    encodingOk 0x30400000 = true ∧ encodingOk 0x30480000 = false ∧ encodingOk 0x4FFFFFFF = true ∧
    encodingOk 0x60000000 = false := by decide

theorem test_decodeTableWord : decodeTableWord 32 0x49800009 = some (.setpix true 3 9) ∧
    decodeTableWord 32 0x60000000 = none := by decide

/-! ### NOP, INIT, SETBRT -/

/-- V-NOP-4. -/
theorem test_nop_illegal : (run stR [0x00000001]).status = 0x00010203 ∧ (run stR [0x00000001]).faultCmd = 0x00000001 := by decide

/-- V-NOP-6: NOP overwrites LAST = OOB. -/
theorem test_nop_last : (run stB1 [0x48000008]).status = 0x00000111 ∧ (run stB1 [0x48000008, 0]).status = 0x00000011 := by
  decide

/-- V-INIT-1, the whole header. -/
theorem test_init_header : stB0.status = 0x00000001 ∧ stB0.headerBytes =
    [0x77, 0x61, 0x6E, 0x67, 0x00, 0x00] ++ List.replicate 32 0x00 ++ [0x18, 0x05, 0x11, 0x0D, 0x2D, 0x09] ++
      List.replicate 20 0x00 := by decide

/-- V-INIT-10 and V-INIT-11: the year is taken mod 100, nothing is checked. -/
theorem test_init_time :
    (run (State.reset.setRtc ⟨2100, 1, 1, 0, 0, 0⟩) [0x10000000]).timestamp = [0x00, 0x01, 0x01, 0x00, 0x00, 0x00] ∧
    (run (State.reset.setRtc ⟨2024, 13, 40, 25, 61, 61⟩) [0x10000000]).timestamp = [0x18, 0x0D, 0x28, 0x19, 0x3D, 0x3D] := by
  decide

/-- V-BRT-1 and V-BRT-5. -/
theorem test_setbrt : byteRead (run stB0 [0x20000020]) 5 = .data 0x20 ∧ stX1.status = 0x00020213 ∧ stX1.padLen = 128 ∧
    byteRead stX1 0 = .rdErr := by decide

/-- V-BRT-3. -/
theorem test_setbrt_illegal : (run stB0 [0x20000031]).status = 0x00010203 ∧ (run stB0 [0x20000031]).load 5 = 0x00 := by decide

/-! ### ADDMSG -/

/-- V-ADD-3 and V-ADD-4: two slots. -/
theorem test_addmsg : (run stB0 [0x3FC00002, 0x30100001]).rawLen = 97 ∧
    (run stB0 [0x3FC00002, 0x30100001]).viewBase = 86 ∧ (run stB0 [0x3FC00002, 0x30100001]).viewGroups = 1 ∧
    ((List.range 15).map fun j => (run stB0 [0x3FC00002, 0x30100001]).load (6 + j)) =
      [0x01, 0x01, 0x78, 0x02, 0, 0, 0, 0, 0, 0, 0x00, 0x02, 0x00, 0x01, 0] := by decide

/-- V-ADD-9, V-ADD-10 and V-ADD-12: capacity at its boundary, and a ninth message. -/
theorem test_addmsg_faults : (run stB0 [0x300002E3]).status = 0x00100203 ∧ (run stB0 [0x300002E2]).rawLen = 8182 ∧
    (run stB0 (List.replicate 8 0x30000000 ++ [0x30010000])).status = 0x00040283 := by decide

/-! ### SETPIX -/

/-- V-PIX-5, V-PIX-6 and V-PIX-17: addresses and masks. -/
theorem test_setpix : (run stB0 [0x30000002, 0x49800009]).load 78 = 0x40 ∧ (run stB0 [0x30000002, 0x4D00000F]).load 85 = 0x01 ∧
    (run stB0 [0x3FC00002, 0x30100001, 0x48000000]).load 86 = 0x80 := by decide

/-- V-PIX-13, V-PIX-12 and V-PIX-9: a write, a clear, and out of bounds. -/
theorem test_setpix_writes : (run stB1 [0x48000000, 0x48000000]).load 64 = 0x80 ∧
    (run stB1 [0x48000000, 0x40000000]) = stB1 ∧ run stB1 [0x4FFFFFFF] = stB1.setLast .oob := by decide

/-! ### FINAL and the ports -/

/-- V-FINAL-1, V-FINAL-4, V-FINAL-5: lengths at and between multiples of 64. -/
theorem test_final : (run stB0 [0x50000000]).padLen = 64 ∧ (run stB0 [0x30000006, 0x50000000]).padLen = 192 ∧
    (run stB0 [0x300002E2, 0x50000000]).padLen = 8192 := by decide

/-- V-FINAL-7: SIZE. -/
theorem test_final_size : (run stLarge [0x10000000, 0x300002E3, 0x50000000]).status = 0x00200213 ∧
    (run stLarge [0x10000000, 0x300002E3, 0x50000000]).padLen = 0 := by decide

/-- V-RD-1 and V-RD-2. -/
theorem test_byteRead : byteRead stB1 74 = .data 0x00 ∧ byteRead stB1 75 = .rdErr ∧ byteRead stF1 127 = .data 0x00 ∧
    byteRead stF1 128 = .rdErr ∧ byteRead stR 0 = .rdErr := by decide

/-- V-RD-5. -/
theorem test_regRead : regRead stF1 0 = 0x00000012 ∧ regRead stF1 1 = 75 ∧ regRead stF1 2 = 128 ∧ regRead stF1 3 = 0 := by decide

/-- V-RD-6 and V-RD-7: the last chunk and the index after it, for both sizes; P1's pixel opens the second large chunk. -/
theorem test_chunkRead : chunkRead .ble stF1 7 = .data (List.replicate 16 0x00) ∧ chunkRead .ble stF1 8 = .rdErr ∧
    chunkRead .usb (run stR [0x10000000, 0x32000001, 0x48000000, 0x50000000]) 1 = .data (0x80 :: List.replicate 63 0x00) ∧
    chunkRead .usb stF1 2 = .rdErr := by decide

/-! ### Faults, reset, the header decoder, the assembler -/

/-- V-FLT-3, V-FLT-4 and V-PIX-15. -/
theorem test_faults : (run stR [0x3FF80000]).status = 0x00010203 ∧ (run stX [0x10000000]).status = 0x00010303 ∧
    (run stX [0x10000000]).faultCmd = 0x60000000 ∧ (run stR [0x48000000]).status = 0x00020203 := by decide

/-- V-FLT-6; the draw of what BUF holds is visible to no port. -/
theorem test_reset : (stateOr stX (step (stX.setHost [.reset [0xAA, 0xBB]]))).status = 0x00000000 ∧
    byteRead (stateOr stX (step (stX.setHost [.reset [0xAA, 0xBB]]))) 0 = .rdErr := by decide

/-- P2's decoded header, slots 0 to 2. -/
theorem test_headerDecode :
    let s := run stR [0x10000010, 0x3FC00002, 0x30100001, 0x20000030]
    let h := headerDecode s.params s.headerBytes
    h.magicOk = true ∧ h.brightness = some .brt3 ∧ h.timestamp = [24, 5, 17, 13, 45, 9] ∧
      h.slots.take 3 = [⟨true, true, some 7, 8, 2⟩, ⟨false, false, some 0, 2, 1⟩, ⟨false, false, some 0, 0, 0⟩] := by decide

/-- R97 on text: names, hexadecimal, comments, the default of v; a value that fits its field but not the rules is accepted. -/
theorem test_assembleText :
    assembleText ("ADDMSG  groups=2, speed=7, mode=LASER, blink, border ; two".toList) = some [0x3FC00002] ∧
    assembleText ("SETPIX 9, 3".toList) = some [0x49800009] ∧ assembleText ("INIT brt=0x08".toList) = some [0x10000008] ∧
    assembleText ("INIT brt=256".toList) = none ∧ assembleText ("; nothing".toList) = some [] := by decide

/-- R98: the right edge decides the groups; pixels with a negative coordinate are skipped. -/
theorem test_addmsgd : addmsgd ⟨false, true, 4, 2⟩ ⟨9, [(8, 0), (-1, 3), (2, 10)]⟩ =
    [.addmsg 2 4 2 false true, .setpix 8 0 (some 1), .setpix 2 10 (some 1)] := by decide

/-! ### The host's two questions, and one step -/

theorem test_withFetchWord : (stateOr stR (step (State.reset.withFetchWord 32 0x10000010))).st = .building ∧
    (stateOr stR (step (State.reset.withFetchWord 32 0x50000000))).fault = 0b000010 := by decide

/-- With no action left the machine holds its state (R216, R231). -/
theorem test_idle_step : step State.reset = .next State.reset := by rfl

/-! ### Witnesses: concrete data that meet the hypotheses of each statement -/

theorem test_inv_building : Inv stB1 where
  bufWf := by decide
  countLe := by decide
  unopened := by decide
  opened _ := {
    magic := by decide
    brightness := by decide
    reserved1 := by decide
    reserved2 := by decide
    unusedSlots := by decide
    packed := by decide
    rawLength := by decide
    inCapacity := by decide
    viewStart := by decide
    viewEnd := by decide
    viewLatest := by decide }
  idle := by decide
  building := by decide
  finalized := by decide
  faulted h := absurd h (by decide)
  notFaulted := by decide

/-- Two slots: the view is the second one's region. -/
theorem test_inv_two_slots : Inv stB2 where
  bufWf := by decide
  countLe := by decide
  unopened := by decide
  opened _ := {
    magic := by decide
    brightness := by decide
    reserved1 := by decide
    reserved2 := by decide
    unusedSlots := by decide
    packed := by decide
    rawLength := by decide
    inCapacity := by decide
    viewStart := by decide
    viewEnd := by decide
    viewLatest := by decide }
  idle := by decide
  building := by decide
  finalized := by decide
  faulted h := absurd h (by decide)
  notFaulted := by decide

/-- A view over both slots does not meet the invariant (R30). -/
theorem test_inv_refuses_wide_view : ¬ Inv { stB2 with viewBase := 64, viewGroups := 2 } :=
  fun h => absurd ((h.opened (by decide)).viewLatest (by decide)) (by decide)

theorem test_inv_finalized : Inv stF1 where
  bufWf := by decide
  countLe := by decide
  unopened := by decide
  opened _ := {
    magic := by decide
    brightness := by decide
    reserved1 := by decide
    reserved2 := by decide
    unusedSlots := by decide
    packed := by decide
    rawLength := by decide
    inCapacity := by decide
    viewStart := by decide
    viewEnd := by decide
    viewLatest := by decide }
  idle := by decide
  building := by decide
  finalized := by decide
  faulted h := absurd h (by decide)
  notFaulted := by decide

theorem test_inv_faulted : Inv stX where
  bufWf := by decide
  countLe := by decide
  unopened := by decide
  opened h := absurd (by decide : stX.rawLen = 0) h
  idle := by decide
  building := by decide
  finalized := by decide
  faulted _ := ⟨⟨.illegal, by decide⟩, by decide⟩
  notFaulted := by decide

theorem test_witness_EncodeDecodeRoundTrip : decode 0x3FC00002 = .ok (.addmsg true true 7 8 2) := by rfl

theorem test_witness_StepRunsDecodedCommand :
    (issuing stB1 0x49800009 []).host = .command 0x49800009 may17 :: [] ∧ decode 0x49800009 = .ok (.setpix true 3 9) :=
  ⟨rfl, rfl⟩

/-- One word for each kind of illegal encoding (R89), and the legal words beside them. -/
theorem test_witness_IllegalWordLatchesIllegal : (stR.st ≠ .faulted ∧ stR.fault = 0) ∧ ¬ wordLegal 0x60000000 ∧ ¬ wordLegal 0x50000001 ∧
    ¬ wordLegal 0x10000008 ∧ ¬ wordLegal 0x30480000 ∧ wordLegal 0x30400000 ∧ wordLegal 0x4FFFFFFF := by
  refine ⟨by decide, ?_, ?_, ?_, ?_, ?_, ?_⟩ <;> unfold wordLegal <;> decide

theorem test_witness_WrongStateLatchesSequence :
    (stB1.st = .building ∧ wellFormed (.init 0x10) = true) ∧
    (stR.st ≠ .faulted ∧ stR.st ≠ .building ∧ wellFormed .final = true ∧ stR.fault = 0) ∧
    (stF1.st ≠ .faulted ∧ stF1.st ≠ .building ∧ wellFormed (.setpix true 0 0) = true) ∧
    (stB1.st = .building ∧ wellFormed .final = true ∧ stB1.fault = 0 ∧ ∀ b, Instr.final ≠ .init b) ∧
    exec .final stB1 = .next stF1 :=
  ⟨by decide, by decide, by decide, ⟨by decide, by decide, by decide, fun _ h => (nomatch h)⟩, rfl⟩

theorem test_witness_FaultedIgnoresEveryWord :
    stX.st = .faulted ∧ (issuing stX 0x10000000 []).host = .command 0x10000000 may17 :: [] := by decide

theorem test_witness_FaultsArePrecise :
    step (issuing stB1 0x300002E3 []) = .next (run stB1 [0x300002E3]) ∧ stB1.st ≠ .faulted ∧
    (run stB1 [0x300002E3]).st = .faulted := ⟨rfl, by decide, by decide⟩

/-- The moves of ST: to BUILDING, to FINALIZED, to FAULTED, and reset. -/
theorem test_witness_StMovesOnlyAsStated :
    step (issuing stR 0x10000000 []) = .next stB0 ∧ step (issuing stB1 0x50000000 []) = .next stF1 ∧
    step (issuing stR 0x60000000 []) = .next stX ∧
    (stateOr stX (step (stX.setHost [.reset []]))).st = .idle := ⟨rfl, rfl, rfl, by decide⟩

theorem test_witness_LastReportsTheCommand :
    exec .nop stX = .next stX.ignore ∧ (exec .final stR = .next (run stR [0x50000000]) ∧
      (run stR [0x50000000]).last = .fault) ∧
    (exec (.setpix true 11 0) stB1 = .next (stB1.setLast .oob)) := ⟨rfl, ⟨rfl, by decide⟩, rfl⟩

theorem test_witness_NopWritesOnlyLast : stB1.st ≠ .faulted ∧ stX.st = .faulted ∧
    ((0x08000000 : Word).toNat < 2 ^ 28 ∧ (0x08000000 : Word) ≠ 0) := by decide

/-- The clauses at their boundaries: the largest code, and the words next to it. -/
theorem test_witness_InitOpensPayload :
    (stR.st = .idle ∧ stF1.st = .finalized ∧ (0x30#8) ∈ [0x00#8, 0x10#8, 0x20#8, 0x30#8]) ∧ stB1.st = .building ∧
    ((0x10000031 : Word).toNat / 2 ^ 28 = 1 ∧ (0x10000031 : Word).toNat % 2 ^ 28 ∉ [0x00, 0x10, 0x20, 0x30]) ∧
    ((0x10000110 : Word).toNat / 2 ^ 28 = 1 ∧ (0x10000110 : Word).toNat % 2 ^ 28 ∉ [0x00, 0x10, 0x20, 0x30]) := by decide

theorem test_witness_SetbrtOverwritesOneByte :
    stB1.st = .building ∧ stR.st = .idle ∧ stF1.st = .finalized ∧ (0x00#8) ∈ [0x00#8, 0x10#8, 0x20#8, 0x30#8] ∧
    ((0x20000031 : Word).toNat / 2 ^ 28 = 2 ∧ (0x20000031 : Word).toNat % 2 ^ 28 ∉ [0x00, 0x10, 0x20, 0x30]) := by decide

theorem test_witness_BrightnessRoundTrip : stR.st = .idle ∧ stB1.st = .building ∧
    (∀ k, (0x08 : Byte) ≠ brightnessEncode k) ∧ ∀ k, (0x40 : Byte) ≠ brightnessEncode k := by
  refine ⟨by decide, by decide, fun k => ?_, fun k => ?_⟩ <;> cases k <;> decide

theorem test_witness_TimestampIsTimeOfInit :
    (exec (.init 0x00) stR = .next stB0 ∧ stB0.last = .ok) ∧
    (exec (.setpix true 0 0) stB1 = .next (run stB1 [0x48000000]) ∧ stB1.timestamp = [24, 5, 17, 13, 45, 9]) :=
  ⟨⟨rfl, by decide⟩, rfl, by decide⟩

theorem test_witness_RtcIsReadOnlyByInit : (∀ b, Instr.final ≠ .init b) ∧ exec .final stB1 = .next stF1 :=
  ⟨fun _ h => (nomatch h), rfl⟩

/-- The largest message that still fits: 738 groups end at 8182. -/
theorem test_witness_AddmsgAppendsSlot : (Inv stB1 ∧ stB1.st = .building ∧ stB1.count.toNat < 8) ∧
    stB0.st = .building ∧ (8 : BitVec 4).toNat ≤ 8 ∧ stB0.count.toNat < 8 ∧ (738 : BitVec 19).toNat ≤ 65535 ∧
    stB0.rawLen.toNat + 11 * (738 : BitVec 19).toNat ≤ stB0.params.rawCapacity :=
  ⟨⟨test_inv_building, by decide, by decide⟩, by decide⟩

/-- Each of the three checks at its boundary. -/
theorem test_witness_AddmsgChecksInOrder :
    ((run stB0 (List.replicate 8 0x30000000)).count.toNat = 8 ∧ (run stB0 (List.replicate 8 0x30000000)).st = .building) ∧
    65535 < (65536 : BitVec 19).toNat ∧
    (stB0.st = .building ∧ stB0.params.rawCapacity < stB0.rawLen.toNat + 11 * (739 : BitVec 19).toNat) := by decide

theorem test_witness_ZeroWidthMessageIsEmptySlot : Inv stB1 ∧ stB1.st = .building ∧ (8 : BitVec 4).toNat ≤ 8 ∧
    stB1.count.toNat < 8 := ⟨test_inv_building, by decide, by decide, by decide⟩

theorem test_witness_FreshRegionIsDark :
    exec (.addmsg false false 0 0 1) stB0 = .next stB1 ∧ stB1.last = .ok ∧ 7 < 8 * stB1.viewGroups.toNat ∧ 10 < 11 :=
  ⟨rfl, by decide, by decide, by decide⟩

theorem test_witness_ViewMovesToNewSlot :
    exec (.addmsg false false 0 0 1) stB0 = .next stB1 ∧ stB1.last = .ok ∧
    exec (.setpix true 10 7) stB1 = .next (run stB1 [0x4D000007]) ∧ 63 < stB0.rawLen.toNat :=
  ⟨rfl, by decide, rfl, by decide⟩

/-- The last pixel of the view is in bounds, the ones after it in either direction are not. -/
theorem test_witness_SetpixWritesPixel :
    (stB1.st = .building ∧ 11 ≤ (11 : BitVec 4).toNat ∧ 8 * stB1.viewGroups.toNat ≤ (8 : BitVec 23).toNat) ∧
    ((10 : BitVec 4).toNat < 11 ∧ (7 : BitVec 23).toNat < 8 * stB1.viewGroups.toNat ∧
      stB1.viewBase.toNat + (7 : BitVec 23).toNat / 8 * 11 + (10 : BitVec 4).toNat < stB1.params.rawCapacity) ∧
    (stR.st = .idle ∧ stF1.st = .finalized) ∧ (0x4FFFFFFF : Word).toNat / 2 ^ 28 = 4 := by decide

/-- For SetpixChangesOneBit and SetpixUpdatesPixelGrid. -/
theorem test_witness_SetpixChangesOneBit :
    exec (.setpix true 10 7) stB1 = .next (run stB1 [0x4D000007]) ∧ (run stB1 [0x4D000007]).last = .ok ∧
    7 < 8 * stB1.viewGroups.toNat := ⟨rfl, by decide, by decide⟩

/-- The last pixel of the view, the addresses on its two sides, and the first and last byte of the earlier slot. -/
theorem test_witness_SetpixStaysInView : Inv stB2 ∧ stB2.st = .building ∧
    exec (.setpix true 10 7) stB2 = .next (run stB2 [0x4D000007]) ∧ 0 < stB2.viewGroups.toNat ∧
    7 < 8 * stB2.viewGroups.toNat ∧ 74 < stB2.viewBase.toNat ∧ stB2.viewBase.toNat + 11 * stB2.viewGroups.toNat ≤ 86 ∧
    0 + 1 < stB2.count.toNat ∧ stB2.slotBase 0 ≤ 64 ∧ 74 < stB2.slotBase (0 + 1) :=
  ⟨test_inv_two_slots, by decide, rfl, by decide⟩

theorem test_witness_LastSetpixWins : stB1.st = .building ∧
    exec (.setpix true 10 7) stB1 = .next (run stB1 [0x4D000007]) := ⟨by decide, rfl⟩

/-- A state no run reaches, in which an in-bounds pixel lies outside BUF: the only stop. -/
theorem test_witness_StopsOnlyOutsideBuf :
    exec (.setpix true 0 0) { stB1 with viewBase := 8192 } = .fault (.outsideBuf 8192) := by rfl

/-- Padded lengths at the limit and above it, and a word beside FINAL's. -/
theorem test_witness_FinalSealsOrRaisesSize :
    ((run stB0 [0x300002E2]).st = .building ∧ ((run stB0 [0x300002E2]).rawLen.toNat + 63) / 64 * 64 = 8192) ∧
    ((run stLarge [0x10000000, 0x300002E3]).st = .building ∧
      8192 < ((run stLarge [0x10000000, 0x300002E3]).rawLen.toNat + 63) / 64 * 64) ∧
    (stR.st = .idle ∧ stF1.st = .finalized) ∧
    ((0x50000001 : Word).toNat / 2 ^ 28 = 5 ∧ (0x50000001 : Word) ≠ 0x50000000) ∧
    (stB1.st = .building ∧ stB1.params.rawCapacity = 8192) := by decide

theorem test_witness_SizeCannotOccurAtDecidedCapacity : Inv stB1 ∧ stB1.st = .building ∧ stB1.params.rawCapacity = 8192 :=
  ⟨test_inv_building, by decide, by decide⟩

/-- Each clause at the addresses where they meet. -/
theorem test_witness_ByteReadReturns :
    (stF1.st = .finalized ∧ 74 < stF1.rawLen.toNat ∧ stF1.rawLen.toNat ≤ 75 ∧ 127 < stF1.padLen.toNat ∧
      stF1.padLen.toNat ≤ 128) ∧
    (stB1.st = .building ∧ 74 < stB1.rawLen.toNat ∧ stB1.rawLen.toNat ≤ 75) ∧ stR.st = .idle ∧ stX1.st = .faulted := by decide

/-- For the chunk statements and PaddedPayloadProperties: the last index, the one after it, and a state not sealed. -/
theorem test_witness_ChunkReadSlicesPayload : (Inv stF1 ∧ stF1.st = .finalized) ∧
    7 < stF1.padLen.toNat / chunkBytes .ble ∧ stF1.padLen.toNat / chunkBytes .usb ≤ 2 ∧
    stF1.rawLen.toNat ≤ 127 ∧ 127 < stF1.padLen.toNat ∧ (Inv stB1 ∧ stB1.st ≠ .finalized) :=
  ⟨⟨test_inv_finalized, by decide⟩, by decide, by decide, by decide, by decide, test_inv_building, by decide⟩

theorem test_witness_InitHidesOldPayload :
    exec (.init 0x20) stF1 = .next (run stF1 [0x10000020]) ∧ (run stF1 [0x10000020]).last = .ok := ⟨rfl, by decide⟩

theorem test_witness_ResetSetsRegistersAndAloneLeavesFaulted :
    (stX.setHost [.reset [0xAA]]).host = .reset [0xAA] :: [] ∧ (stX.setHost [.reset [0xAA]]).st = .faulted ∧
    (stateOr stX (step (stX.setHost [.reset [0xAA]]))).st ≠ .faulted ∧ 0 < stX.params.rawCapacity := by decide

theorem test_witness_ResetLeavesSurroundingsAlone :
    (stX.setHost [.reset [0xAA], .command 0 may17]).host = .reset [0xAA] :: [.command 0 may17] ∧
    step (stX.setHost [.reset [0xAA], .command 0 may17]) =
      .next (stateOr stX (step (stX.setHost [.reset [0xAA], .command 0 may17]))) := ⟨rfl, rfl⟩

/-- For EveryStepKeepsInvariant and EveryStepCompletes: from each kind of state. -/
theorem test_witness_EveryStepKeepsInvariant : Inv stB1 ∧ Inv stB2 ∧ Inv stF1 ∧ Inv stX ∧
    step (issuing stB1 0x50000000 []) = .next stF1 :=
  ⟨test_inv_building, test_inv_two_slots, test_inv_finalized, test_inv_faulted, rfl⟩

theorem test_witness_HeaderRefinesMessageList :
    (exec (.init 0x00) stR = .next stB0 ∧ stB0.last = .ok) ∧ Inv stB1 ∧
    HeaderIs stB1 0x00 may17 [⟨⟨false, false, 0, 0⟩, 1⟩] ∧ exec .final stB1 = .next stF1 := by
  refine ⟨⟨rfl, by decide⟩, test_inv_building, ⟨by decide, by decide⟩, rfl⟩

/-- P2's two messages. -/
theorem test_witness_HeaderDecodeReadsMessages :
    let msgs : List Message := [⟨⟨true, true, 7, 8⟩, 2⟩, ⟨⟨false, false, 0, 2⟩, 1⟩]
    HeaderIs (run stR [0x10000010, 0x3FC00002, 0x30100001]) (brightnessEncode .brt1) may17 msgs ∧ msgs.length ≤ 8 ∧
      ∀ m ∈ msgs, m.groups ≤ 65535 := ⟨⟨by decide, by decide⟩, by decide, by decide⟩

/-- For UnreadBytesNeverMatter and PortsSeeOnlyVisibleBytes: bytes above RAW_LEN and a draw to come differ. -/
theorem test_witness_UnreadBytesNeverMatter :
    Inv (stB1.setHost [.reset [1]]) ∧
    SameVisible (stB1.setHost [.reset [1]]) ((stB1.setBuf (stB1.buf.write 8191 0xFF)).setHost [.reset [2]]) ∧
    step (stB1.setHost [.reset [1]]) = .next (stateOr stB1 (step (stB1.setHost [.reset [1]]))) := by
  refine ⟨{ test_inv_building with
    opened := fun h => { test_inv_building.opened h with }, faulted := fun h => absurd h (by decide) }, ?_, rfl⟩
  exact ⟨rfl, rfl, rfl, rfl, rfl, rfl, rfl, rfl, rfl, rfl, rfl, by decide, by decide⟩

theorem test_witness_RawLenOnlyGrows : (∀ b, Instr.addmsg false false 0 0 1 ≠ .init b) ∧
    exec (.addmsg false false 0 0 1) stB0 = .next stB1 ∧ stB1.rawLen ≠ stB0.rawLen :=
  ⟨fun _ h => (nomatch h), rfl, by decide⟩

theorem test_witness_AssemblerAcceptsFittingValues :
    assemble (.init 255) = some 0x100000FF ∧ assemble (.setbrt 48) = some 0x20000030 ∧ assemble (.init 256) = none ∧
    assemble (.addmsg 524287 7 15 true false) = some 0x3BFFFFFF ∧ assemble (.setpix 8388607 15 none) = some 0x4FFFFFFF ∧
    assemble (.addmsg 524288 7 15 true false) = none ∧ assemble (.setpix 0 0 (some 2)) = none := by decide

end Sys2Proof.Tests
end

section
/-!
SUPPORT. The status registers (R23, R27, R35, R36): STATUS as the row of its fields, and the moves a command makes on ST.
-/

namespace Sys2Proof.Proofs

open Sys2Proof.Machine Sys2Proof.Laws

/-! ### STATUS -/

/-- The shifted fields of R36 do not overlap: from bit 31 down they stand side by side, with zeros between them. -/
theorem status_eq_append (s : State) :
    s.status =
      (0 : BitVec 10) ++ s.fault ++ (0 : BitVec 6) ++ lastCode s.last ++ s.count ++ (0 : BitVec 2) ++ stCode s.st := by
  apply BitVec.eq_of_getLsbD_eq
  intro k hk
  simp only [State.status, BitVec.getLsbD_or, BitVec.getLsbD_shiftLeft, BitVec.getLsbD_setWidth, BitVec.getLsbD_append]
  interval_cases k <;> simp

/-- Each slice of STATUS is one field of R36. -/
theorem status_fields (s : State) :
    s.status.extractLsb' 0 2 = stCode s.st ∧ s.status.extractLsb' 2 2 = 0 ∧ s.status.extractLsb' 4 4 = s.count ∧
    s.status.extractLsb' 8 2 = lastCode s.last ∧ s.status.extractLsb' 10 6 = 0 ∧ s.status.extractLsb' 16 6 = s.fault ∧
    s.status.extractLsb' 22 10 = 0 := by
  rw [status_eq_append]
  simp (disch := omega) only [extractLsb'_append_low, extractLsb'_append_high]
  exact ⟨extractLsb'_whole _, extractLsb'_whole _, extractLsb'_whole _, extractLsb'_whole _, extractLsb'_whole _,
    extractLsb'_whole _, extractLsb'_whole _⟩

/-- Settles O32: STATUS is the concatenation of its fields, and every slice of it at a field's bounds is that field. -/
theorem statusAndRegisterMap : Obligations.StatusAndRegisterMap := by
  refine ⟨⟨rfl, rfl, rfl, rfl⟩, ⟨rfl, rfl, rfl, rfl⟩, fun s => ?_⟩
  obtain ⟨hst, h2, hcount, hlast, h10, hfault, h22⟩ := status_fields s
  exact ⟨hst, h2, hcount, hlast, h10, hfault, h22, rfl, rfl, rfl⟩

/-! ### ST -/

/-- The moves of ST by a command (R23): none, fault entry, INIT opening a payload or FINAL sealing it; only the first in FAULTED. -/
inductive StMove (s : State) (i : Instr) (t : State) : Prop
  | kept (hst : t.st = s.st)
  | fault (hf : s.st ≠ .faulted) (hst : t.st = .faulted) (hl : t.last = .fault)
  | opened (hs : s.st = .idle ∨ s.st = .finalized) (hst : t.st = .building) (hi : ∃ b, i = .init b)
  | sealed (hs : s.st = .building) (hst : t.st = .finalized) (hi : i = .final)

section
variable {s t : State} {i : Instr}

theorem stMove_raise (hf : s.st ≠ .faulted) (c : Cause) (w : Word) : StMove s i (s.raise c w) := .fault hf rfl rfl

theorem not_faulted_of_building (h : s.st = .building) : s.st ≠ .faulted := by simp [h]

/-- Every case of the dispatch and of the command rules makes one of the moves of R23. -/
theorem stMove_of_does (h : Does s i t) : StMove s i t := by
  cases h with
  | ignored _ _ => exact .kept rfl
  | illegal _ hf _ => exact stMove_raise hf _ _
  | sequence _ hf _ _ => exact stMove_raise hf _ _
  | nop _ => exact .kept rfl
  | init brt hst _ => exact .opened hst rfl ⟨brt, rfl⟩
  | setbrt _ _ _ => exact .kept rfl
  | slotsFull _ _ hst _ _ => exact stMove_raise (not_faulted_of_building hst) _ _
  | lenOverflow _ _ hst _ _ _ => exact stMove_raise (not_faulted_of_building hst) _ _
  | capacity _ _ hst _ _ _ _ => exact stMove_raise (not_faulted_of_building hst) _ _
  | addmsg _ _ _ _ _ _ _ => exact .kept rfl
  | oob _ _ _ _ _ => exact .kept rfl
  | setpix _ _ _ _ _ _ _ => exact .kept rfl
  | size hst _ => exact stMove_raise (not_faulted_of_building hst) _ _
  | final hst _ => exact .sealed hst rfl rfl

/-- A word that is no command keeps ST in FAULTED and raises a fault elsewhere (R89, R204). -/
theorem rejectWord_st (w : Word) (s : State) :
    (rejectWord w s).st = s.st ∨
      (s.st ≠ .faulted ∧ (rejectWord w s).st = .faulted ∧ (rejectWord w s).last = .fault) := by
  by_cases hf : s.st = .faulted
  · exact .inl (by simp [rejectWord, hf])
  · exact .inr ⟨hf, by simp [rejectWord, hf]⟩

end

/-- Settles O11: by the cases of a step, a command making one of the moves of `StMove`. -/
theorem stMovesOnlyAsStated : Obligations.StMovesOnlyAsStated := by
  refine ⟨⟨rfl, rfl, rfl, rfl⟩, fun s t h => ?_⟩
  obtain ⟨-, rfl⟩ | ⟨bs, rest, hh, rfl⟩ | ⟨w, c, rest, i, hh, hd, hdoes⟩ | ⟨w, c, rest, e, hh, -, rfl⟩ := step_cases h
  · exact .inl rfl
  · exact .inr (.inr ⟨bs, rest, hh, rfl⟩)
  · cases stMove_of_does hdoes with
    | kept hst => exact .inl hst
    | fault hf hst hl => exact .inr (.inl ⟨w, c, rest, hh, hf, .inl ⟨hst, hl⟩⟩)
    | opened hs hst hi =>
      obtain ⟨b, rfl⟩ := hi
      have hs' : s.st ≠ .faulted := by
        intro hf
        simp [hf] at hs
      exact .inr (.inl ⟨w, c, rest, hh, hs', .inr (.inl ⟨hs, hst, b, hd⟩)⟩)
    | sealed hs hst hi =>
      subst hi
      exact .inr (.inl ⟨w, c, rest, hh, not_faulted_of_building hs, .inr (.inr ⟨hs, hst, hd⟩)⟩)
  · obtain hst | ⟨hf, hst, hl⟩ := rejectWord_st w ((s.setHost rest).setRtc c)
    · exact .inl hst
    · exact .inr (.inl ⟨w, c, rest, hh, hf, .inl ⟨hst, hl⟩⟩)

end Sys2Proof.Proofs
end

section
/-!
SUPPORT. The byte readout port (R60): the answer of `ByteRead` in each state, one lemma per case of the rule.
-/

namespace Sys2Proof.Proofs

open Sys2Proof.Machine

section
variable {s : State} {a : Nat}

/-- A sealed payload answers its own bytes. -/
theorem byteRead_of_finalized (hst : s.st = .finalized) (hpad : a < s.padLen.toNat) (hraw : a < s.rawLen.toNat) :
    byteRead s a = .data (s.load a) := by
  simp [byteRead, hst, hpad, hraw]

/-- The virtual zeros of the padding (R173). -/
theorem byteRead_of_padding (hst : s.st = .finalized) (hpad : a < s.padLen.toNat) (hraw : s.rawLen.toNat ≤ a) :
    byteRead s a = .data 0 := by
  simp [byteRead, hst, hpad, hraw.not_gt]

/-- A payload under construction answers the bytes it has so far. -/
theorem byteRead_of_building (hst : s.st = .building) (hraw : a < s.rawLen.toNat) : byteRead s a = .data (s.load a) := by
  simp [byteRead, hst, hraw]

/-- `RD_ERR` wherever neither readable range reaches the address. -/
theorem byteRead_eq_rdErr (hpad : s.st = .finalized → s.padLen.toNat ≤ a) (hraw : s.st = .building → s.rawLen.toNat ≤ a) :
    byteRead s a = .rdErr := by
  have hsealed : ¬ (s.st = .finalized ∧ a < s.padLen.toNat) := fun ⟨hst, ha⟩ => (hpad hst).not_gt ha
  have hopen : ¬ (s.st = .building ∧ a < s.rawLen.toNat) := fun ⟨hst, ha⟩ => (hraw hst).not_gt ha
  rw [byteRead, if_neg hsealed, if_neg hopen]

end

/-- Settles O33: one case of R60 for each clause; a state that is not readable at `a` is outside both readable ranges. -/
theorem byteReadReturns : Obligations.ByteReadReturns := by
  refine fun s a => ⟨byteRead_of_finalized, byteRead_of_padding, byteRead_of_building, ?_⟩
  rintro (hst | hst | ⟨hst, ha⟩ | ⟨hst, ha⟩)
  · exact byteRead_eq_rdErr (by simp [hst]) (by simp [hst])
  · exact byteRead_eq_rdErr (by simp [hst]) (by simp [hst])
  · exact byteRead_eq_rdErr (fun _ => ha) (by simp [hst])
  · exact byteRead_eq_rdErr (by simp [hst]) (fun _ => ha)

end Sys2Proof.Proofs
end

section
/-!
SUPPORT. The opcode map (R80 to R87): the fields of a word as numbers, what the decoder answers for each value of OP, and the
word a decoded command came from.
-/

namespace Sys2Proof.Proofs

open Sys2Proof.Laws

/-! ### The fields of a word as numbers -/

section
variable {w : Word}

/-- The rows of the opcode map by OP, grouped by format Z, B, M and P (R82 to R86), and the reserved values (R87). -/
theorem opField_cases (w : Word) :
    (opField w = 0 ∨ opField w = 5) ∨ (opField w = 1 ∨ opField w = 2) ∨ opField w = 3 ∨ opField w = 4 ∨
      6 ≤ (opField w).toNat := by
  bv_omega

/-- OP as the number the opcode map gives for it (R86). -/
theorem opField_eq_iff {k : BitVec 4} : opField w = k ↔ w.toNat / 2 ^ 28 = k.toNat := by
  rw [← opField_toNat, BitVec.toNat_inj]

/-- Format Z (R82): every bit below OP is reserved. -/
theorem operand_eq_zero_iff : w.extractLsb' 0 28 = 0 ↔ w.toNat % 2 ^ 28 = 0 := by
  rw [← operand_toNat, BitVec.toNat_eq]
  rfl

/-- The reserved field of format B as a number (R83). -/
theorem reservedB_eq_zero_iff : w.extractLsb' 8 20 = 0 ↔ w.toNat / 2 ^ 8 % 2 ^ 20 = 0 := by
  rw [BitVec.toNat_eq, BitVec.extractLsb'_toNat, Nat.shiftRight_eq_div_pow]
  rfl

/-- A word of OP `k` with nothing in the reserved field of format B is `k` and twenty zeros above its BRT (R83). -/
theorem opField_and_reservedB_iff {k : BitVec 4} :
    opField w = k ∧ w.extractLsb' 8 20 = 0 ↔ w.toNat / 2 ^ 8 = k.toNat * 2 ^ 20 := by
  rw [opField_eq_iff, reservedB_eq_zero_iff]
  omega

/-- Legality in format B (R83, R89): the 28 bits below OP are a brightness code. -/
theorem formatB_legal_iff :
    (w.extractLsb' 8 20 = 0 ∧ w.extractLsb' 0 8 ∈ [0x00#8, 0x10#8, 0x20#8, 0x30#8]) ↔
      w.toNat % 2 ^ 28 ∈ [0x00, 0x10, 0x20, 0x30] := by
  rw [reservedB_eq_zero_iff]
  simp only [List.mem_cons, List.not_mem_nil, or_false, BitVec.toNat_eq, BitVec.extractLsb'_toNat, Nat.shiftRight_zero,
    BitVec.toNat_ofNat]
  omega

end

/-! ### The decoder, row by row -/

section
variable {w : Word}

theorem decode_of_op_nop (h : opField w = 0) :
    decode w = if w.extractLsb' 0 28 = 0 then .ok .nop else .error .reservedField := by simp [decode, h]

theorem decode_of_op_init (h : opField w = 1) :
    decode w = if w.extractLsb' 8 20 = 0 then .ok (.init (w.extractLsb' 0 8)) else .error .reservedField := by
  simp [decode, h]

theorem decode_of_op_setbrt (h : opField w = 2) :
    decode w = if w.extractLsb' 8 20 = 0 then .ok (.setbrt (w.extractLsb' 0 8)) else .error .reservedField := by
  simp [decode, h]

theorem decode_of_op_addmsg (h : opField w = 3) :
    decode w = .ok (.addmsg (w.getLsbD 27) (w.getLsbD 26) (w.extractLsb' 23 3) (w.extractLsb' 19 4) (w.extractLsb' 0 19)) := by
  simp [decode, h]

theorem decode_of_op_setpix (h : opField w = 4) :
    decode w = .ok (.setpix (w.getLsbD 27) (w.extractLsb' 23 4) (w.extractLsb' 0 23)) := by simp [decode, h]

theorem decode_of_op_final (h : opField w = 5) :
    decode w = if w.extractLsb' 0 28 = 0 then .ok .final else .error .reservedField := by simp [decode, h]

theorem decode_of_op_reserved (h : 6 ≤ (opField w).toNat) : decode w = .error .reservedOpcode := by
  have hne : ∀ k : BitVec 4, k.toNat < 6 → opField w ≠ k := by
    rintro k hk rfl
    omega
  simp [decode, hne]

/-- Only a reserved OP is refused as a reserved opcode; the other refusals name the reserved field (R87). -/
theorem decode_eq_reservedOpcode_iff : decode w = .error .reservedOpcode ↔ 6 ≤ (opField w).toNat := by
  refine ⟨fun h => ?_, decode_of_op_reserved⟩
  rcases opField_cases w with (hop | hop) | (hop | hop) | hop | hop | hop
  · rw [decode_of_op_nop hop] at h; split at h <;> cases h
  · rw [decode_of_op_final hop] at h; split at h <;> cases h
  · rw [decode_of_op_init hop] at h; split at h <;> cases h
  · rw [decode_of_op_setbrt hop] at h; split at h <;> cases h
  · rw [decode_of_op_addmsg hop] at h; cases h
  · rw [decode_of_op_setpix hop] at h; cases h
  · exact hop

/-! ### The word of a decoded command -/

/-- OP and the zeros of format Z fill the word (R82). -/
theorem formatZ_append {k : BitVec 4} (hop : opField w = k) (hz : w.extractLsb' 0 28 = 0#28) : k ++ 0#28 = w := by
  rw [← hop, ← hz, opField, extractLsb'_append_extractLsb' w 0 4 28, extractLsb'_whole]

/-- OP, the reserved zeros and BRT fill the word in format B (R83). -/
theorem formatB_append {k : BitVec 4} (hop : opField w = k) (hz : w.extractLsb' 8 20 = 0#20) :
    k ++ 0#20 ++ w.extractLsb' 0 8 = w := by
  rw [← hop, ← hz, opField, extractLsb'_append_extractLsb' w 8 4 20, extractLsb'_append_extractLsb' w 0 24 8,
    extractLsb'_whole]

/-- The fields of format M fill the word (R84). -/
theorem formatM_append {k : BitVec 4} (hop : opField w = k) :
    k ++ BitVec.ofBool (w.getLsbD 27) ++ BitVec.ofBool (w.getLsbD 26) ++ w.extractLsb' 23 3 ++ w.extractLsb' 19 4
      ++ w.extractLsb' 0 19 = w := by
  rw [← hop, opField, ofBool_getLsbD, ofBool_getLsbD, extractLsb'_append_extractLsb' w 27 4 1,
    extractLsb'_append_extractLsb' w 26 5 1, extractLsb'_append_extractLsb' w 23 6 3,
    extractLsb'_append_extractLsb' w 19 9 4, extractLsb'_append_extractLsb' w 0 13 19, extractLsb'_whole]

/-- The fields of format P fill the word (R85). -/
theorem formatP_append {k : BitVec 4} (hop : opField w = k) :
    k ++ BitVec.ofBool (w.getLsbD 27) ++ w.extractLsb' 23 4 ++ w.extractLsb' 0 23 = w := by
  rw [← hop, opField, ofBool_getLsbD, extractLsb'_append_extractLsb' w 27 4 1, extractLsb'_append_extractLsb' w 23 5 4,
    extractLsb'_append_extractLsb' w 0 9 23, extractLsb'_whole]

/-- The decoder drops no bit: in each row the fields it read, and the reserved zeros it checked, fill the word. -/
theorem encode_of_decode {i : Instr} (h : decode w = .ok i) : encode i = w := by
  rcases opField_cases w with (hop | hop) | (hop | hop) | hop | hop | hop
  · rw [decode_of_op_nop hop] at h
    split at h
    · next hz => cases h; exact formatZ_append hop hz
    · cases h
  · rw [decode_of_op_final hop] at h
    split at h
    · next hz => cases h; exact formatZ_append hop hz
    · cases h
  · rw [decode_of_op_init hop] at h
    split at h
    · next hz => cases h; exact formatB_append hop hz
    · cases h
  · rw [decode_of_op_setbrt hop] at h
    split at h
    · next hz => cases h; exact formatB_append hop hz
    · cases h
  · rw [decode_of_op_addmsg hop] at h
    cases h
    exact formatM_append hop
  · rw [decode_of_op_setpix hop] at h
    cases h
    exact formatP_append hop
  · rw [decode_of_op_reserved hop] at h
    cases h

end

/-- Settles O4: a row's word has the row's OP and zeros, by `encode_of_decode`; conversely OP and the zeros select the row. -/
theorem opcodeMapSelectsByWord : Obligations.OpcodeMapSelectsByWord := by
  refine fun w => ⟨⟨?_, ?_⟩, ⟨?_, ?_⟩, ⟨?_, ?_⟩, ⟨?_, ?_⟩, ⟨?_, ?_⟩, ⟨?_, ?_⟩, ?_⟩
  · intro h
    exact (encode_of_decode h).symm
  · rintro rfl
    rfl
  · intro h
    exact (encode_of_decode h).symm
  · rintro rfl
    rfl
  · rintro ⟨b, h⟩
    obtain rfl := encode_of_decode h
    exact opField_and_reservedB_iff.mp ⟨opField_init b, rsvd_init b⟩
  · intro h
    obtain ⟨hop, hz⟩ := (opField_and_reservedB_iff (k := 1)).mpr h
    exact ⟨_, (decode_of_op_init hop).trans (if_pos hz)⟩
  · rintro ⟨b, h⟩
    obtain rfl := encode_of_decode h
    exact opField_and_reservedB_iff.mp ⟨opField_setbrt b, rsvd_setbrt b⟩
  · intro h
    obtain ⟨hop, hz⟩ := (opField_and_reservedB_iff (k := 2)).mpr h
    exact ⟨_, (decode_of_op_setbrt hop).trans (if_pos hz)⟩
  · rintro ⟨b, d, s, m, n, h⟩
    obtain rfl := encode_of_decode h
    exact opField_eq_iff.mp (opField_addmsg b d s m n)
  · intro h
    exact ⟨_, _, _, _, _, decode_of_op_addmsg (opField_eq_iff.mpr h)⟩
  · rintro ⟨v, y, x, h⟩
    obtain rfl := encode_of_decode h
    exact opField_eq_iff.mp (opField_setpix v y x)
  · intro h
    exact ⟨_, _, _, decode_of_op_setpix (opField_eq_iff.mpr h)⟩
  · rw [decode_eq_reservedOpcode_iff, opField_toNat]

/-- Settles O5: each word of R99 and each line of R97 and R98 is evaluated. -/
theorem exampleWordsDecode : Obligations.ExampleWordsDecode :=
  ⟨rfl, rfl, rfl, rfl, rfl, rfl, rfl, rfl, rfl, rfl, rfl, rfl, rfl, rfl, rfl, rfl⟩

end Sys2Proof.Proofs
end

section
/-!
SUPPORT. Illegal encodings (R89): the numeric reading of legality agrees with `encoding_ok`, and a word latches ILLEGAL exactly
when it is an illegal encoding.
-/

namespace Sys2Proof.Proofs

open Sys2Proof.Machine Sys2Proof.Laws Sys2Proof.Safety

/-! ### Legal words -/

section
variable {w : Word}

theorem encodingOk_iff_of_formatZ (h : opField w = 0 ∨ opField w = 5) :
    encodingOk w = true ↔ w.extractLsb' 0 28 = 0 := by
  rcases h with hop | hop <;> simp [encodingOk, hop]

theorem encodingOk_iff_of_formatB (h : opField w = 1 ∨ opField w = 2) :
    encodingOk w = true ↔ w.extractLsb' 8 20 = 0 ∧ w.extractLsb' 0 8 ∈ [0x00#8, 0x10#8, 0x20#8, 0x30#8] := by
  rcases h with hop | hop <;> simp [encodingOk, hop]

theorem encodingOk_iff_of_formatM (h : opField w = 3) : encodingOk w = true ↔ (w.extractLsb' 19 4).toNat ≤ 8 := by
  simp [encodingOk, h]

theorem encodingOk_of_formatP (h : opField w = 4) : encodingOk w = true := by
  simp [encodingOk, h]

theorem encodingOk_of_reserved (h : 6 ≤ (opField w).toNat) : encodingOk w = false := by
  unfold encodingOk
  split
  case h_7 => rfl
  all_goals omega

/-- The two readings of R89, field by field and as numbers, agree for each value of OP. -/
theorem encodingOk_iff_wordLegal (w : Word) : encodingOk w = true ↔ wordLegal w := by
  unfold wordLegal
  rcases opField_cases w with hop | hop | hop | hop | hop
  · have hnum : w.toNat / 2 ^ 28 = 0 ∨ w.toNat / 2 ^ 28 = 5 := hop.imp opField_eq_iff.mp opField_eq_iff.mp
    rw [encodingOk_iff_of_formatZ hop, operand_eq_zero_iff]
    rcases hnum with hnum | hnum <;> rw [hnum] <;> simp
  · have hnum : w.toNat / 2 ^ 28 = 1 ∨ w.toNat / 2 ^ 28 = 2 := hop.imp opField_eq_iff.mp opField_eq_iff.mp
    rw [encodingOk_iff_of_formatB hop, formatB_legal_iff]
    rcases hnum with hnum | hnum <;> rw [hnum] <;> simp
  · have hnum : w.toNat / 2 ^ 28 = 3 := opField_eq_iff.mp hop
    rw [encodingOk_iff_of_formatM hop, BitVec.extractLsb'_toNat, Nat.shiftRight_eq_div_pow, hnum]
    simp
  · have hnum : w.toNat / 2 ^ 28 = 4 := opField_eq_iff.mp hop
    rw [encodingOk_of_formatP hop, hnum]
    simp
  · have hnum : 6 ≤ w.toNat / 2 ^ 28 := opField_toNat w ▸ hop
    rw [encodingOk_of_reserved hop]
    simp only [Bool.false_eq_true, false_iff]
    omega

/-- `encoding_ok` of a word says whether the command it decodes to is well-formed. -/
theorem encodingOk_of_decode {i : Instr} (h : decode w = .ok i) : encodingOk w = wellFormed i := by
  rw [← encodingOk_encode, encode_of_decode h]

/-- A word that passes `encoding_ok` selects a command: both check the same reserved bits (R87, R89). -/
theorem decode_of_encodingOk (h : encodingOk w = true) : ∃ i, decode w = .ok i := by
  rcases opField_cases w with (hop | hop) | (hop | hop) | hop | hop | hop
  · exact ⟨_, (decode_of_op_nop hop).trans (if_pos ((encodingOk_iff_of_formatZ (.inl hop)).mp h))⟩
  · exact ⟨_, (decode_of_op_final hop).trans (if_pos ((encodingOk_iff_of_formatZ (.inr hop)).mp h))⟩
  · exact ⟨_, (decode_of_op_init hop).trans (if_pos ((encodingOk_iff_of_formatB (.inl hop)).mp h).1)⟩
  · exact ⟨_, (decode_of_op_setbrt hop).trans (if_pos ((encodingOk_iff_of_formatB (.inr hop)).mp h).1)⟩
  · exact ⟨_, decode_of_op_addmsg hop⟩
  · exact ⟨_, decode_of_op_setpix hop⟩
  · rw [encodingOk_of_reserved hop] at h
    cases h

end

/-! ### The fault a word latches -/

section
variable {s t : State} {i : Instr} {w : Word}

/-- Fault entry outside FAULTED is the only write to FAULT, and its cause is ILLEGAL only for an ill-formed command. -/
theorem fault_of_does (h : Does s i t) :
    t.fault = s.fault ∨ ∃ c, t.fault = s.fault ||| causeBit c ∧ (c = .illegal → wellFormed i = false) := by
  cases h with
  | illegal _ _ hw => exact .inr ⟨.illegal, rfl, fun _ => hw⟩
  | sequence _ _ _ _ => exact .inr ⟨.sequence, rfl, nofun⟩
  | slotsFull _ _ _ _ _ => exact .inr ⟨.slotsFull, rfl, nofun⟩
  | lenOverflow _ _ _ _ _ _ => exact .inr ⟨.lenOverflow, rfl, nofun⟩
  | capacity _ _ _ _ _ _ _ => exact .inr ⟨.capacity, rfl, nofun⟩
  | size _ _ => exact .inr ⟨.size, rfl, nofun⟩
  | ignored _ _ => exact .inl rfl
  | nop _ => exact .inl rfl
  | init _ _ _ => exact .inl rfl
  | setbrt _ _ _ => exact .inl rfl
  | addmsg _ _ _ _ _ _ _ => exact .inl rfl
  | oob _ _ _ _ _ => exact .inl rfl
  | setpix _ _ _ _ _ _ _ => exact .inl rfl
  | final _ _ => exact .inl rfl

/-- Bit 0 of FAULT belongs to ILLEGAL alone (R28, R200). -/
theorem causeBit_getLsbD_zero {c : Cause} (hc : c ≠ .illegal) : (causeBit c).getLsbD 0 = false := by
  cases c with
  | illegal => exact absurd rfl hc
  | sequence | slotsFull | lenOverflow | capacity | size => rfl

/-- An illegal encoding raises ILLEGAL outside FAULTED, whether or not it selects a command (R89, R202). -/
theorem issueWord_illegal (hst : s.st ≠ .faulted) (hw : encodingOk w = false) :
    issueWord w s = .next (s.raise .illegal w) := by
  rw [issueWord]
  split
  · next i hd =>
    rw [encodingOk_of_decode hd] at hw
    rw [exec_eq, runCommand_illegal hst hw, encode_of_decode hd]
  · rw [rejectWord, if_neg hst]

/-- A legal word is a command that raises no ILLEGAL, so it leaves bit 0 of FAULT as it was. -/
theorem issueWord_keeps_illegal_bit (hw : encodingOk w = true) (h : issueWord w s = .next t) :
    t.fault.getLsbD 0 = s.fault.getLsbD 0 := by
  obtain ⟨i, hd⟩ := decode_of_encodingOk hw
  rw [encodingOk_of_decode hd] at hw
  rw [issueWord, hd] at h
  obtain hf | ⟨c, hf, hc⟩ := fault_of_does (exec_does h)
  · rw [hf]
  · have hne : c ≠ .illegal := fun hill => by simp [hc hill] at hw
    rw [hf, BitVec.getLsbD_or, causeBit_getLsbD_zero hne, Bool.or_false]

/-- A step on a command issues its word to the state with the presented time and the rest of the host's actions (R20, R33). -/
theorem step_of_command {c : Rtc} {rest : List HostAct} (h : s.host = .command w c :: rest) :
    step s = issueWord w ((s.setHost rest).setRtc c) := by
  rw [step, h]
  rfl

end

/-- Settles O7: an illegal word is fault entry for ILLEGAL, and a legal one keeps bit 0 of FAULT. -/
theorem illegalWordLatchesIllegal : Obligations.IllegalWordLatchesIllegal := by
  intro s w c rest hh hst
  rw [step_of_command hh, ← encodingOk_iff_wordLegal]
  refine ⟨fun hw => issueWord_illegal hst (Bool.eq_false_iff.mpr hw), fun hw hf t ht => ?_⟩
  rw [issueWord_keeps_illegal_bit hw ht]
  simp [hf]

end Sys2Proof.Proofs
end

section
/-!
SUPPORT. The payload setup commands (R110 to R117): when NOP, INIT and SETBRT complete and which fault they raise otherwise, the
header INIT leaves, the brightness codes, and the commands that keep the timestamp.
-/

namespace Sys2Proof.Proofs

open Sys2Proof.Machine Sys2Proof.Laws Sys2Proof.Safety

/-! ### Brightness codes -/

section
variable {b : Byte}

/-- The codes R91 lists are those of the four values. -/
theorem mem_brightnessCodes_iff : b ∈ brightnessCodes ↔ ∃ k, b = brightnessEncode k := by
  constructor
  · intro h
    simp only [brightnessCodes, List.mem_cons, List.not_mem_nil, or_false] at h
    obtain rfl | rfl | rfl | rfl := h
    · exact ⟨.brt0, rfl⟩
    · exact ⟨.brt1, rfl⟩
    · exact ⟨.brt2, rfl⟩
    · exact ⟨.brt3, rfl⟩
  · rintro ⟨k, rfl⟩
    cases k <;> decide

theorem brightnessEncode_mem (k : Brightness) : brightnessEncode k ∈ brightnessCodes :=
  mem_brightnessCodes_iff.mpr ⟨k, rfl⟩

theorem brightnessDecode_encode (k : Brightness) : brightnessDecode (brightnessEncode k) = some k := by
  cases k <;> rfl

theorem brightnessDecode_eq_none (h : b ∉ brightnessCodes) : brightnessDecode b = none := by
  simp only [brightnessCodes, List.mem_cons, List.not_mem_nil, or_false, not_or] at h
  obtain ⟨h0, h1, h2, h3⟩ := h
  rw [brightnessDecode, if_neg h0, if_neg h1, if_neg h2, if_neg h3]

theorem wellFormed_init_iff : wellFormed (.init b) = true ↔ b ∈ brightnessCodes := by
  rw [wellFormed, List.contains_iff_mem]

theorem wellFormed_setbrt_iff : wellFormed (.setbrt b) = true ↔ b ∈ brightnessCodes := by
  rw [wellFormed, List.contains_iff_mem]

end

/-! ### How the setup commands end -/

section
variable {s : State} {i : Instr} {brt : Byte} {w : Word}

/-- An ill-formed command raises ILLEGAL outside FAULTED (R89). -/
theorem exec_illegal (hst : s.st ≠ .faulted) (hw : wellFormed i = false) :
    exec i s = .next (afterFault s 0 (encode i)) := by
  rw [exec_eq, runCommand_illegal hst hw]
  rfl

/-- A well-formed command in a state its row of R201 lacks raises SEQUENCE outside FAULTED. -/
theorem exec_sequence (hst : s.st ≠ .faulted) (hw : wellFormed i = true) (hl : legalState i s.st = false) :
    exec i s = .next (afterFault s 1 (encode i)) := by
  rw [exec_eq, runCommand_sequence hst hw hl]
  rfl

theorem exec_faulted (hst : s.st = .faulted) : exec i s = .next s.ignore := by
  rw [exec_eq, runCommand_faulted hst]

theorem exec_nop (hst : s.st ≠ .faulted) : exec .nop s = .next (s.setLast .ok) := by
  refine exec_legal rfl ?_
  cases h : s.st with
  | faulted => exact absurd h hst
  | idle | building | finalized => rfl

theorem exec_init (hst : s.st = .idle ∨ s.st = .finalized) (hb : brt ∈ brightnessCodes) :
    exec (.init brt) s = .next (openPayload brt s) := by
  refine exec_legal (wellFormed_init_iff.mpr hb) ?_
  rcases hst with hst | hst <;> rw [hst] <;> rfl

theorem exec_setbrt (hst : s.st = .building) (hb : brt ∈ brightnessCodes) :
    exec (.setbrt brt) s = .next (overwriteBrightness brt s) :=
  exec_legal (wellFormed_setbrt_iff.mpr hb) (by rw [hst]; rfl)

theorem exec_init_building (hst : s.st = .building) (hb : brt ∈ brightnessCodes) :
    exec (.init brt) s = .next (afterFault s 1 (encode (.init brt))) :=
  exec_sequence (not_faulted_of_building hst) (wellFormed_init_iff.mpr hb) (by rw [hst]; rfl)

theorem exec_setbrt_not_building (hst : s.st = .idle ∨ s.st = .finalized) (hb : brt ∈ brightnessCodes) :
    exec (.setbrt brt) s = .next (afterFault s 1 (encode (.setbrt brt))) := by
  rcases hst with hst | hst <;>
    exact exec_sequence (by simp [hst]) (wellFormed_setbrt_iff.mpr hb) (by rw [hst]; rfl)

/-- A word with the OP of INIT or SETBRT whose other bits are no brightness code raises ILLEGAL, be it a wrong BRT or a nonzero
reserved field (R83, R89). -/
theorem issueWord_formatB_illegal (hst : s.st ≠ .faulted) (hop : w.toNat / 2 ^ 28 = 1 ∨ w.toNat / 2 ^ 28 = 2)
    (hb : w.toNat % 2 ^ 28 ∉ [0x00, 0x10, 0x20, 0x30]) : issueWord w s = .next (afterFault s 0 w) := by
  have hop' : opField w = 1 ∨ opField w = 2 := hop.imp opField_eq_iff.mpr opField_eq_iff.mpr
  have hok : encodingOk w = false :=
    Bool.eq_false_iff.mpr fun h => hb (formatB_legal_iff.mp ((encodingOk_iff_of_formatB hop').mp h))
  exact issueWord_illegal hst hok

/-- A word with the OP of NOP and another bit set raises ILLEGAL (R82, R89). -/
theorem issueWord_nop_illegal (hst : s.st ≠ .faulted) (hlt : w.toNat < 2 ^ 28) (hne : w ≠ 0) :
    issueWord w s = .next (afterFault s 0 w) := by
  have hop : opField w = 0 := opField_eq_iff.mpr (Nat.div_eq_of_lt hlt)
  have hbits : ¬ w.extractLsb' 0 28 = 0 := by
    rw [operand_eq_zero_iff, Nat.mod_eq_of_lt hlt]
    exact fun h => hne (BitVec.eq_of_toNat_eq h)
  have hok : encodingOk w = false :=
    Bool.eq_false_iff.mpr fun h => hbits ((encodingOk_iff_of_formatZ (.inl hop)).mp h)
  exact issueWord_illegal hst hok

end

/-- Settles O13: NOP is legal in every state but FAULTED. -/
theorem nopWritesOnlyLast : Obligations.NopWritesOnlyLast :=
  ⟨fun _ => exec_nop, fun _ => exec_faulted, fun _ _ => issueWord_nop_illegal⟩

/-! ### The header INIT leaves -/

/-- The fields of the header that INIT writes, and its end, as distances from the magic (R55). -/
theorem header_offsets (p : Params) :
    offBrightness p = magicLen p ∧ offTimestamp p = magicLen p + 33 ∧ hdrLen p = magicLen p + 59 := ⟨rfl, rfl, rfl⟩

section
variable {p : Params} {brt : Byte} {c : Rtc} {m : Memory} {a j : Nat}

theorem read_initHeader_magic (ha : a < magicLen p) : (initHeader p brt c m).read a = p.magic.getD a 0 := by
  have := header_offsets p
  rw [read_initHeader, if_neg (by omega), if_neg (by omega), if_pos ha]

theorem read_initHeader_brightness : (initHeader p brt c m).read (offBrightness p) = brt := by
  have := header_offsets p
  rw [read_initHeader, if_neg (by omega), if_pos rfl]

theorem read_initHeader_timestamp (hj : j < 6) :
    (initHeader p brt c m).read (offTimestamp p + j) = (timestampBytes c).getD j 0 := by
  rw [read_initHeader, if_pos (by omega), Nat.add_sub_cancel_left]

/-- Between the brightness and the end of the header INIT writes the timestamp and zeros (R112). -/
theorem read_initHeader_zero (hlo : magicLen p < a) (hhi : a < hdrLen p)
    (hts : a < offTimestamp p ∨ offTimestamp p + 6 ≤ a) : (initHeader p brt c m).read a = 0 := by
  have := header_offsets p
  rw [read_initHeader, if_neg (by omega), if_neg (by omega), if_neg (by omega), if_pos hhi]

theorem read_initHeader_above (ha : hdrLen p ≤ a) : (initHeader p brt c m).read a = m.read a := by
  have := header_offsets p
  rw [read_initHeader, if_neg (by omega), if_neg (by omega), if_neg (by omega), if_neg (by omega)]

end

section
variable (s : State) (brt : Byte)

theorem openPayload_rawLen_toNat : (openPayload brt s).rawLen.toNat = hdrLen s.params :=
  Nat.mod_eq_of_lt (hdrLen_lt s.params)

/-- An old payload's bytes cannot be read after INIT (R60, R112). -/
theorem byteRead_openPayload_above {a : Nat} (ha : hdrLen s.params ≤ a) : byteRead (openPayload brt s) a = .rdErr :=
  byteRead_eq_rdErr nofun fun _ => by rwa [openPayload_rawLen_toNat]

end

/-- Settles O14: INIT is `openPayload`, whose buffer is read field by field; its faults are the dispatch's. -/
theorem initOpensPayload : Obligations.InitOpensPayload := by
  refine ⟨fun s brt hst hb => ?_, fun _ _ => exec_init_building,
    fun _ _ hst hop => issueWord_formatB_illegal hst (.inl hop)⟩
  have := header_offsets s.params
  have ts : ∀ j < 6, (initHeader s.params brt s.rtc s.buf).read (offTimestamp s.params + j) =
      (timestampBytes s.rtc).getD j 0 := fun _ => read_initHeader_timestamp
  refine ⟨initHeader s.params brt s.rtc s.buf, openPayload brt s, exec_init hst hb, rfl, fun _ => read_initHeader_magic,
    read_initHeader_brightness, ?year, ts 1 (by decide), ts 2 (by decide), ts 3 (by decide), ts 4 (by decide),
    ts 5 (by decide), ?low, ?high, fun a ha => ⟨read_initHeader_above ha, byteRead_openPayload_above s brt ha⟩⟩
  case year =>
    have hyear : s.rtc.year.toNat % 100 < 2 ^ 8 := by omega
    exact (congrArg BitVec.toNat (ts 0 (by decide))).trans (Nat.mod_eq_of_lt hyear)
  case low =>
    intro a hlo (hhi : a < offTimestamp s.params)
    exact read_initHeader_zero hlo (by omega) (.inl hhi)
  case high =>
    intro a (hlo : offTimestamp s.params + 5 < a) hhi
    exact read_initHeader_zero (by omega) hhi (.inr hlo)

/-! ### The brightness byte -/

/-- Settles O15: SETBRT is `overwriteBrightness`, one write to the buffer; its faults are the dispatch's. -/
theorem setbrtOverwritesOneByte : Obligations.SetbrtOverwritesOneByte :=
  ⟨fun s brt hst hb => ⟨s.buf.write (offBrightness s.params) brt, exec_setbrt hst hb, load_overwriteBrightness s brt⟩,
    fun _ _ => exec_setbrt_not_building, fun _ _ hst hop => issueWord_formatB_illegal hst (.inr hop)⟩

section
variable {s : State}

theorem layout_of_building (h : Inv s) (hst : s.st = .building) : Layout s := h.opened (h.building hst).1

/-- An open payload has at least its header (R25). -/
theorem hdrLen_le_rawLen (h : Layout s) : hdrLen s.params ≤ s.rawLen.toNat := by
  rw [h.rawLength]
  exact Nat.le_add_right _ _

theorem byteRead_brightness_openPayload (s : State) (brt : Byte) :
    byteRead (openPayload brt s) (offBrightness s.params) = .data brt := by
  have hlt : offBrightness s.params < (openPayload brt s).rawLen.toNat := by
    have := header_offsets s.params
    rw [openPayload_rawLen_toNat]
    omega
  rw [byteRead_of_building rfl hlt, load_openPayload, read_initHeader_brightness]

theorem byteRead_brightness_overwriteBrightness (h : Inv s) (hst : s.st = .building) (brt : Byte) :
    byteRead (overwriteBrightness brt s) (offBrightness s.params) = .data brt := by
  have hlt : offBrightness s.params < s.rawLen.toNat := by
    have := header_offsets s.params
    have := hdrLen_le_rawLen (layout_of_building h hst)
    omega
  rw [byteRead_of_building (s := overwriteBrightness brt s) hst hlt, load_overwriteBrightness, if_pos rfl]

end

/-- Settles O16: a code is stored and read back by INIT and by SETBRT; a byte that is no code is ill-formed in both. -/
theorem brightnessRoundTrip : Obligations.BrightnessRoundTrip := by
  refine ⟨fun s k hst => ?_, fun s k h hst => ?_, fun s b hst hb => ?_⟩
  · exact ⟨_, exec_init hst (brightnessEncode_mem k), byteRead_brightness_openPayload s _, brightnessDecode_encode k⟩
  · exact ⟨_, exec_setbrt hst (brightnessEncode_mem k), byteRead_brightness_overwriteBrightness h hst _⟩
  · have hcode : b ∉ brightnessCodes := fun h => (mem_brightnessCodes_iff.mp h).elim hb
    exact ⟨brightnessDecode_eq_none hcode, exec_illegal hst (Bool.eq_false_iff.mpr (mt wellFormed_init_iff.mp hcode)),
      exec_illegal hst (Bool.eq_false_iff.mpr (mt wellFormed_setbrt_iff.mp hcode))⟩

/-! ### The timestamp -/

theorem timestamp_openPayload (s : State) (brt : Byte) : (openPayload brt s).timestamp = timestampBytes s.rtc := by
  have hbytes : (openPayload brt s).timestamp = (List.range 6).map fun j => (timestampBytes s.rtc).getD j 0 :=
    List.map_congr_left fun j hj => read_initHeader_timestamp (List.mem_range.mp hj)
  exact hbytes

section
variable {s t : State} {i : Instr}

/-- The timestamp depends only on the parameters and its six bytes (R55). -/
theorem timestamp_congr (hp : t.params = s.params)
    (hb : ∀ j < 6, t.load (offTimestamp s.params + j) = s.load (offTimestamp s.params + j)) : t.timestamp = s.timestamp := by
  unfold State.timestamp
  rw [hp]
  exact List.map_congr_left fun j hj => hb j (List.mem_range.mp hj)

theorem timestamp_overwriteBrightness (s : State) (brt : Byte) : (overwriteBrightness brt s).timestamp = s.timestamp :=
  timestamp_congr rfl fun j _ => by
    have := header_offsets s.params
    rw [load_overwriteBrightness, if_neg (by omega)]

/-- ADDMSG writes no header byte after the slot fields (R55, R137). -/
theorem load_appendSlot_after_slots (hh : hdrLen s.params ≤ s.rawLen.toNat) (hc : s.count.toNat < 8) (sty : Style)
    (n : BitVec 19) {a : Nat} (hlo : offReserved1 s.params ≤ a) (hhi : a < hdrLen s.params) :
    (appendSlot sty n s).load a = s.load a := by
  rw [load_appendSlot_header s sty n hh hhi]
  simp only [offReserved1, offLen, offSpdMode, offBorder, offBlink] at hlo ⊢
  rw [if_neg (by omega), if_neg (by omega), if_neg (by omega), if_neg (by omega), if_neg (by omega)]

/-- The timestamp lies after the slot fields. -/
theorem timestamp_appendSlot (h : Layout s) (hc : s.count.toNat < 8) (sty : Style) (n : BitVec 19) :
    (appendSlot sty n s).timestamp = s.timestamp :=
  timestamp_congr rfl fun j hj => by
    have := header_offsets s.params
    exact load_appendSlot_after_slots (hdrLen_le_rawLen h) hc sty n (by simp only [offReserved1]; omega) (by omega)

/-- SETPIX writes above the header (R30, R154). -/
theorem timestamp_writePixel {b : Nat} (hb : hdrLen s.params ≤ b) (x : BitVec 23) (v : Bool) :
    (writePixel b x v s).timestamp = s.timestamp :=
  timestamp_congr rfl fun j hj => by
    have := header_offsets s.params
    rw [load_writePixel, if_neg (by omega)]

/-- A pixel of the view is addressed above the header (R30). -/
theorem hdrLen_le_viewPixAddr (h : Layout s) (x : BitVec 23) (y : BitVec 4) : hdrLen s.params ≤ viewPixAddr s x y := by
  have := h.viewStart
  unfold viewPixAddr pixAddr
  omega

/-- Only INIT writes the timestamp (R113). -/
theorem timestamp_of_does (hinv : Inv s) (hi : ∀ b, i ≠ .init b) (h : Does s i t) : t.timestamp = s.timestamp := by
  cases h with
  | init brt _ _ => exact absurd rfl (hi brt)
  | setbrt brt _ _ => exact timestamp_overwriteBrightness s brt
  | addmsg sty n hst _ hc _ _ =>
    exact timestamp_appendSlot (layout_of_building hinv hst) (Nat.lt_of_le_of_ne hinv.countLe hc) sty n
  | setpix v y x hst _ _ _ => exact timestamp_writePixel (hdrLen_le_viewPixAddr (layout_of_building hinv hst) x y) x v
  | ignored | illegal | sequence | nop | slotsFull | lenOverflow | capacity | oob | size | final => rfl

/-- An INIT that ends with OK is one that opened a payload (R112). -/
theorem eq_openPayload_of_does_init {brt : Byte} (h : Does s (.init brt) t) (hok : t.last = .ok) :
    t = openPayload brt s := by
  cases h with
  | init _ _ _ => rfl
  | ignored | illegal | sequence => cases hok

end

/-- Settles O17: INIT stores the port's value, and every case of the other commands keeps the six bytes. -/
theorem timestampIsTimeOfInit : Obligations.TimestampIsTimeOfInit := by
  refine ⟨fun s t b h hok => ?_, fun i s t hinv hi h => timestamp_of_does hinv hi (exec_does h)⟩
  rw [eq_openPayload_of_does_init (exec_does h) hok]
  exact timestamp_openPayload s b

end Sys2Proof.Proofs
end

section
/-!
SUPPORT. Message append (R130 to R138): what ADDMSG answers for each outcome of its three checks, and the header it leaves, field
by field in rising order of address.
-/

namespace Sys2Proof.Proofs

open Sys2Proof.Machine Sys2Proof.Laws Sys2Proof.Safety

/-! ### How ADDMSG ends -/

section
variable {s : State} {blk brd : Bool} {spd : BitVec 3} {mode : BitVec 4} {n : BitVec 19}

/-- In BUILDING with a legal mode the dispatch lets ADDMSG through to its own checks (R130, R201). -/
theorem exec_addmsg (hst : s.st = .building) (hm : mode.toNat ≤ 8) :
    exec (.addmsg blk brd spd mode n) s = effect (.addmsg blk brd spd mode n) s :=
  exec_legal (decide_eq_true hm) (by rw [hst]; rfl)

/-- The first check of R135. -/
theorem exec_addmsg_slotsFull (hst : s.st = .building) (hm : mode.toNat ≤ 8) (hc : s.count.toNat = 8) :
    exec (.addmsg blk brd spd mode n) s = .next (afterFault s 2 (encode (.addmsg blk brd spd mode n))) := by
  rw [exec_addmsg hst hm, effect, if_pos hc]
  rfl

/-- The second check of R135. -/
theorem exec_addmsg_lenOverflow (hst : s.st = .building) (hm : mode.toNat ≤ 8) (hc : s.count.toNat ≠ 8)
    (hn : 65535 < n.toNat) :
    exec (.addmsg blk brd spd mode n) s = .next (afterFault s 3 (encode (.addmsg blk brd spd mode n))) := by
  rw [exec_addmsg hst hm, effect, if_neg hc, if_pos hn]
  rfl

/-- The third check of R135. -/
theorem exec_addmsg_capacity (hst : s.st = .building) (hm : mode.toNat ≤ 8) (hc : s.count.toNat ≠ 8)
    (hn : n.toNat ≤ 65535) (hr : s.params.rawCapacity < s.rawLen.toNat + 11 * n.toNat) :
    exec (.addmsg blk brd spd mode n) s = .next (afterFault s 4 (encode (.addmsg blk brd spd mode n))) := by
  rw [exec_addmsg hst hm, effect, if_neg hc, if_neg hn.not_gt, if_pos hr]
  rfl

/-- With every check passed ADDMSG appends its slot (R137). -/
theorem exec_addmsg_appends (hst : s.st = .building) (hm : mode.toNat ≤ 8) (hc : s.count.toNat ≠ 8)
    (hn : n.toNat ≤ 65535) (hr : s.rawLen.toNat + 11 * n.toNat ≤ s.params.rawCapacity) :
    exec (.addmsg blk brd spd mode n) s = .next (appendSlot ⟨blk, brd, spd, mode⟩ n s) := by
  rw [exec_addmsg hst hm, effect, if_neg hc, if_neg hn.not_gt, if_neg hr.not_gt]

end

/-- Padding moves no length across the payload limit, because the limit is a multiple of 64 (R134, R174). -/
theorem lt_padLength_iff (r : Nat) : 8192 < r ↔ 8192 < padLength r :=
  ⟨fun h => h.trans_le (padLength_spec r).1, fun h => by_contra fun hr => h.not_ge (padLength_le (Nat.not_lt.mp hr))⟩

/-- Settles O20: the three checks, each taken where those before it pass. -/
theorem addmsgChecksInOrder : Obligations.AddmsgChecksInOrder := by
  refine ⟨lt_padLength_iff, fun s blk brd spd mode n hst hm hfail => ?_⟩
  by_cases hc : s.count.toNat = 8
  · rw [if_pos hc]
    exact exec_addmsg_slotsFull hst hm hc
  by_cases hn : 65535 < n.toNat
  · rw [if_neg hc, if_pos hn]
    exact exec_addmsg_lenOverflow hst hm hc hn
  · have hr : s.params.rawCapacity < s.rawLen.toNat + 11 * n.toNat := (hfail.resolve_left hc).resolve_left hn
    rw [if_neg hc, if_neg hn]
    exact exec_addmsg_capacity hst hm hc (Nat.not_lt.mp hn) hr

/-! ### The header ADDMSG leaves -/

/-- A bitmask byte with the mask written out on both sides (R69, R137). -/
theorem setBit_eq (b : Byte) (i : Nat) (v : Bool) :
    setBit b i v = (b &&& ~~~((1 : Byte) <<< i)) ||| (if v then (1 : Byte) <<< i else 0) := by
  cases v <;> simp [setBit]

/-- A packed byte as a number: the nibbles do not overlap (R94). -/
theorem spdMode_eq_ofNat (spd : BitVec 3) (mode : BitVec 4) :
    spdMode spd mode = BitVec.ofNat 8 (spd.toNat * 16 + mode.toNat) := by
  revert spd mode; decide

/-- The high byte of a length (R52). -/
theorem lenHigh_eq_ofNat (n : BitVec 19) : n.extractLsb' 8 8 = BitVec.ofNat 8 (n.toNat / 256) := by
  rw [BitVec.extractLsb', Nat.shiftRight_eq_div_pow]

/-- The low byte of a length (R52). -/
theorem lenLow_eq_ofNat (n : BitVec 19) : n.extractLsb' 0 8 = BitVec.ofNat 8 (n.toNat % 256) :=
  BitVec.eq_of_toNat_eq (by simp)

/-- The slot's fields of the header lie apart, so that the order in which they are asked for does not matter (R55, R137). -/
theorem read_slotHeader_ascending (p : Params) {i : Nat} (hi : i < 8) (sty : Style) (n : BitVec 19) (m : Memory) (a : Nat) :
    (slotHeader p i sty n m).read a =
      if a = offBlink p then setBit (m.read a) i sty.blink
      else if a = offBorder p then setBit (m.read a) i sty.border
      else if a = offSpdMode p i then spdMode sty.speed sty.mode
      else if a = offLen p i then n.extractLsb' 8 8
      else if a = offLen p i + 1 then n.extractLsb' 0 8
      else m.read a := by
  have hborder : offBlink p < offBorder p := by simp [offBlink, offBorder]
  have hspd : offBorder p < offSpdMode p i := by simp only [offBorder, offSpdMode]; omega
  have hlen : offSpdMode p i < offLen p i := by simp only [offSpdMode, offLen]; omega
  rw [read_slotHeader]
  by_cases hatBlink : a = offBlink p
  · rw [if_neg (by omega), if_neg (by omega), if_neg (by omega), if_neg (by omega), if_pos hatBlink, if_pos hatBlink, hatBlink]
  by_cases hatBorder : a = offBorder p
  · rw [if_neg (by omega), if_neg (by omega), if_neg (by omega), if_pos hatBorder, if_neg hatBlink, if_pos hatBorder, hatBorder]
  by_cases hatSpd : a = offSpdMode p i
  · rw [if_neg (by omega), if_neg (by omega), if_pos hatSpd, if_neg hatBlink, if_neg hatBorder, if_pos hatSpd]
  by_cases hatLen : a = offLen p i
  · rw [if_neg (by omega), if_pos hatLen, if_neg hatBlink, if_neg hatBorder, if_neg hatSpd, if_pos hatLen]
  · simp only [hatBlink, hatBorder, hatSpd, hatLen, if_false]

/-- Settles O19: ADDMSG is `appendSlot`, whose buffer is the slot's header under the zeroed region; the slot was not in use
before (R41). -/
theorem addmsgAppendsSlot : Obligations.AddmsgAppendsSlot := by
  refine ⟨fun s hinv hst hc => ?_, fun s blk brd spd mode n hst hm hc hn hr => ?_⟩
  · obtain ⟨-, -, hblink, hborder⟩ := (layout_of_building hinv hst).unusedSlots _ hc le_rfl
    exact ⟨hblink, hborder⟩
  · have hcount : s.count + 1 = BitVec.ofNat 4 (s.count.toNat + 1) := BitVec.eq_of_toNat_eq (by simp)
    refine ⟨(appendSlot ⟨blk, brd, spd, mode⟩ n s).buf, ?_, hr.trans_lt s.params.capFits, fun a => ?_⟩
    · rw [exec_addmsg_appends hst hm hc.ne hn hr, hcount]
      rfl
    · have hlow : offLen s.params s.count.toNat + 1 = s.params.magic.length + 12 + 2 * s.count.toNat := by
        simp only [offLen, magicLen]
        omega
      refine (load_appendSlot s _ n a).trans ?_
      rw [read_slotHeader_ascending s.params hc, setBit_eq, setBit_eq, spdMode_eq_ofNat, lenHigh_eq_ofNat, lenLow_eq_ofNat,
        hlow]

end Sys2Proof.Proofs
end

section
/-!
SUPPORT. The pixel write (R150 to R156): how SETPIX ends, the one bit an in-bounds SETPIX writes, and the view as the region of the
current slot.
-/

namespace Sys2Proof.Proofs

open Sys2Proof.Machine Sys2Proof.Laws Sys2Proof.Safety

/-! ### How SETPIX ends -/

section
variable {s t : State} {v : Bool} {y : BitVec 4} {x : BitVec 23}

/-- In BUILDING the dispatch lets every SETPIX through to its own check: no operand of it is ill-formed (R89, R201). -/
theorem exec_setpix (hst : s.st = .building) : exec (.setpix v y x) s = effect (.setpix v y x) s :=
  exec_legal rfl (by rw [hst]; rfl)

theorem exec_setpix_oob (hst : s.st = .building) (ho : 11 ≤ y.toNat ∨ 8 * s.viewGroups.toNat ≤ x.toNat) :
    exec (.setpix v y x) s = .next (s.setLast .oob) := by
  rw [exec_setpix hst, effect, if_pos ((pixInBounds_eq_false _ _ _).mpr ho)]

theorem exec_setpix_writes (hst : s.st = .building) (hy : y.toNat < 11) (hx : x.toNat < 8 * s.viewGroups.toNat)
    (ha : viewPixAddr s x y < s.params.rawCapacity) :
    exec (.setpix v y x) s = .next (writePixel (viewPixAddr s x y) x v s) := by
  have hin : pixInBounds s.viewGroups.toNat x.toNat y.toNat = true := (pixInBounds_iff _ _ _).mpr ⟨hy, hx⟩
  rw [exec_setpix hst, effect, if_neg (by simp [hin]), if_pos ha]

theorem exec_setpix_not_building (hst : s.st = .idle ∨ s.st = .finalized) :
    exec (.setpix v y x) s = .next (afterFault s 1 (encode (.setpix v y x))) := by
  rcases hst with hst | hst <;> exact exec_sequence (by simp [hst]) rfl (by rw [hst]; rfl)

/-- A SETPIX that ends with OK is one that wrote its pixel's byte (R152). -/
theorem eq_writePixel_of_does_setpix (h : Does s (.setpix v y x) t) (hok : t.last = .ok) :
    t = writePixel (viewPixAddr s x y) x v s := by
  cases h with
  | setpix => rfl
  | ignored | illegal | sequence | oob => cases hok

end

/-- Settles O24: the three ways SETPIX ends, and every word with its OP decodes and is legal. -/
theorem setpixWritesPixel : Obligations.SetpixWritesPixel := by
  refine fun s v y x => ⟨exec_setpix_oob, fun hst hy hx ha => ?_, exec_setpix_not_building, fun w hw => ?_⟩
  · refine ⟨_, exec_setpix_writes hst hy hx ha, fun a => ?_⟩
    refine (load_writePixel s _ x v a).trans (ite_congr rfl (fun hat => ?_) fun _ => rfl)
    rw [hat]
    rfl
  · have hop : opField w = 4 := opField_eq_iff.mpr hw
    exact ⟨_, _, _, decode_of_op_setpix hop, encodingOk_of_formatP hop⟩

/-! ### The bit SETPIX writes -/

/-- Every bit of `BUF` after the write of a pixel's byte (R155). -/
theorem getLsbD_load_writePixel (s : State) (b : Nat) (x : BitVec 23) (v : Bool) (a : Nat) {j : Nat} (hj : j < 8) :
    ((writePixel b x v s).load a).getLsbD j = if a = b ∧ j = 7 - x.toNat % 8 then v else (s.load a).getLsbD j := by
  rw [load_writePixel]
  by_cases hab : a = b
  · simp only [hab, if_true, true_and, getLsbD_pixWrite _ _ _ _ hj]
  · simp only [hab, if_false, false_and]

/-- Settles O25: a SETPIX that ends with OK is `writePixel` at the pixel's address. -/
theorem setpixChangesOneBit : Obligations.SetpixChangesOneBit := by
  intro s t v y x h hok
  obtain rfl := eq_writePixel_of_does_setpix (exec_does h) hok
  refine ⟨?_, fun a j hj hother => ?_⟩
  · rw [getLsbD_load_writePixel _ _ _ _ _ (by omega), if_pos ⟨rfl, rfl⟩]
  · rw [getLsbD_load_writePixel _ _ _ _ _ hj, if_neg (not_and_or.mpr hother)]

/-! ### The view is the current slot's region -/

section
variable {s t : State} {v : Bool} {y : BitVec 4} {x : BitVec 23} {a i : Nat}

/-- The byte of an in-bounds pixel lies in the view (R154). -/
theorem viewPixAddr_mem_view (hy : y.toNat < 11) (hx : x.toNat < 8 * s.viewGroups.toNat) :
    s.viewBase.toNat ≤ viewPixAddr s x y ∧ viewPixAddr s x y < s.viewBase.toNat + 11 * s.viewGroups.toNat :=
  pixAddr_mem _ _ _ _ hy hx

/-- No SETPIX writes a byte outside the view, however it ends (R154). -/
theorem load_of_does_setpix (h : Does s (.setpix v y x) t)
    (ha : a < s.viewBase.toNat ∨ s.viewBase.toNat + 11 * s.viewGroups.toNat ≤ a) : t.load a = s.load a := by
  cases h with
  | setpix _ _ _ _ hy hx _ =>
    have hmem := viewPixAddr_mem_view hy hx
    rw [load_writePixel, if_neg (by omega)]
  | ignored | illegal | sequence | oob => rfl

/-- The view spans the region of the slot added last (R30, R138). -/
theorem view_eq_last_region (h : Layout s) (hc : 0 < s.count.toNat) :
    s.viewBase.toNat = s.slotBase (s.count.toNat - 1) ∧
    s.viewBase.toNat + 11 * s.viewGroups.toNat = s.slotBase s.count.toNat := by
  obtain ⟨hbase, hgroups⟩ := h.viewLatest hc
  refine ⟨hbase, ?_⟩
  rw [hbase, hgroups, ← slotBase_succ, Nat.sub_add_cancel hc]

/-- The region of every earlier slot ends at or below the view (R54, R154). -/
theorem slotBase_succ_le_viewBase (h : Layout s) (hi : i + 1 < s.count.toNat) : s.slotBase (i + 1) ≤ s.viewBase.toNat := by
  rw [(view_eq_last_region h (by omega)).1]
  exact slotBase_mono s (by omega)

end

/-- Settles O27: the write is inside the view, which starts where the earlier slots' regions have ended. -/
theorem setpixStaysInView : Obligations.SetpixStaysInView := by
  intro s t v y x hinv hst h
  have hlay := layout_of_building hinv hst
  have hframe {a : Nat} := load_of_does_setpix (a := a) (exec_does h)
  refine ⟨hlay.viewStart, hlay.viewEnd, view_eq_last_region hlay, fun i hi a _ hlt => ?_, fun hy hx => ?_, by omega,
    fun a => hframe⟩
  · exact hframe (.inl (hlt.trans_le (slotBase_succ_le_viewBase hlay hi)))
  · exact (viewPixAddr_mem_view hy hx).imp_right Nat.le_sub_one_of_lt

end Sys2Proof.Proofs
end

section
/-!
SUPPORT. Finalization and readout (R171 to R176): how FINAL ends, the bytes of the padded payload as the byte port answers them, and
the chunks as its slices.
-/

namespace Sys2Proof.Proofs

open Sys2Proof.Machine Sys2Proof.Laws Sys2Proof.Safety

/-! ### How FINAL ends -/

section
variable {s : State} {w : Word}

/-- In BUILDING the dispatch lets FINAL through to its size check (R172, R201). -/
theorem exec_final (hst : s.st = .building) : exec .final s = effect .final s :=
  exec_legal rfl (by rw [hst]; rfl)

theorem exec_final_seals (hst : s.st = .building) (hp : padLength s.rawLen.toNat ≤ maxPayload) :
    exec .final s = .next (sealPayload s) := by
  rw [exec_final hst, effect, if_neg hp.not_gt]

theorem exec_final_size (hst : s.st = .building) (hp : maxPayload < padLength s.rawLen.toNat) :
    exec .final s = .next (afterFault s 5 (encode .final)) := by
  rw [exec_final hst, effect, if_pos hp]
  rfl

theorem exec_final_not_building (hst : s.st = .idle ∨ s.st = .finalized) :
    exec .final s = .next (afterFault s 1 (encode .final)) := by
  rcases hst with hst | hst <;> exact exec_sequence (by simp [hst]) rfl (by rw [hst]; rfl)

/-- A word with the OP of FINAL and another bit set raises ILLEGAL (R82, R89). -/
theorem issueWord_final_illegal (hst : s.st ≠ .faulted) (hop : w.toNat / 2 ^ 28 = 5) (hne : w ≠ 0x50000000) :
    issueWord w s = .next (afterFault s 0 w) := by
  have hbits : ¬ w.extractLsb' 0 28 = 0 := fun hz =>
    hne (formatZ_append (opField_eq_iff (k := 5).mpr hop) hz).symm
  have hok : encodingOk w = false :=
    Bool.eq_false_iff.mpr fun h => hbits ((encodingOk_iff_of_formatZ (.inr (opField_eq_iff.mpr hop))).mp h)
  exact issueWord_illegal hst hok

/-- An open payload fits the capacity, so at a capacity of 8192 its padded length does too (R41, R172). -/
theorem padLength_le_of_building (h : Inv s) (hst : s.st = .building) (hcap : s.params.rawCapacity = 8192) :
    padLength s.rawLen.toNat ≤ maxPayload :=
  padLength_le (hcap ▸ (layout_of_building h hst).inCapacity)

/-- No byte is readable after fault entry (R60, R174). -/
theorem byteRead_afterFault (s : State) (code : Nat) (w : Word) (a : Nat) : byteRead (afterFault s code w) a = .rdErr :=
  byteRead_eq_rdErr nofun nofun

end

/-- Settles O30: FINAL is `sealPayload` behind its size check; its other faults are the dispatch's. -/
theorem finalSealsOrRaisesSize : Obligations.FinalSealsOrRaisesSize :=
  fun s => ⟨exec_final_seals, fun hst hp => ⟨exec_final_size hst hp, byteRead_afterFault s 5 _⟩, exec_final_not_building,
    fun hst _ => issueWord_final_illegal hst, padLength_le_of_building⟩

/-! ### The padded payload -/

section
variable {s : State} {a : Nat}

/-- A sealed payload has the padded length of its raw length, within the payload limit (R26, R171, R174). -/
theorem padLen_of_finalized (h : Inv s) (hst : s.st = .finalized) :
    s.rawLen.toNat ≤ s.padLen.toNat ∧ s.padLen.toNat < s.rawLen.toNat + 64 ∧ s.padLen.toNat % 64 = 0 ∧
      s.padLen.toNat ≤ 8192 := by
  obtain ⟨-, hpad, hmax⟩ := h.finalized hst
  obtain ⟨hlo, hhi, hmod⟩ := padLength_spec s.rawLen.toNat
  rw [hpad] at hmax ⊢
  exact ⟨hlo, hhi, hmod, hmax⟩

/-- The zeros fill the payload up to `PAD_LEN` (R173). -/
theorem length_paddedPayload (h : s.rawLen.toNat ≤ s.padLen.toNat) : (paddedPayload s).length = s.padLen.toNat := by
  simp [paddedPayload, h]

/-- The byte port answers the padded payload byte by byte (R60, R173). -/
theorem byteRead_eq_paddedPayload (hst : s.st = .finalized) (hpad : a < s.padLen.toNat)
    (ha : a < (paddedPayload s).length) : byteRead s a = .data (paddedPayload s)[a] := by
  by_cases hraw : a < s.rawLen.toNat
  · rw [byteRead_of_finalized hst hpad hraw]
    simp [paddedPayload, hraw]
  · rw [byteRead_of_padding hst hpad (Nat.not_lt.mp hraw)]
    simp [paddedPayload, List.getElem_append, hraw]

end

/-- Settles O36: the padded length is that of `padLength_spec`, and the bytes it adds are the virtual zeros. -/
theorem paddedPayloadProperties : Obligations.PaddedPayloadProperties := by
  intro s h hst
  obtain ⟨hlo, hhi, hmod, hmax⟩ := padLen_of_finalized h hst
  exact ⟨hmod, hlo, hhi, hmax, fun _ hraw hpad => byteRead_of_padding hst hpad hraw, by omega⟩

/-! ### Chunks -/

section
variable {s : State} {c : ChunkSize} {k : Nat}

/-- Bytes read one after the other without an `RD_ERR` are those bytes. -/
theorem collectReadouts_map_data (bs : List Byte) : collectReadouts (bs.map .data) = .data bs := by
  induction bs with
  | nil => rfl
  | cons b bs ih => rw [List.map_cons, collectReadouts, ih]

/-- An index is below `PAD_LEN / CHUNK_SIZE` exactly when its whole chunk is below `PAD_LEN` (R176). -/
theorem lt_chunkCount_iff : k < s.padLen.toNat / chunkBytes c ↔ (k + 1) * chunkBytes c ≤ s.padLen.toNat := by
  have hpos : 0 < chunkBytes c := by cases c <;> decide
  exact Nat.le_div_iff_mul_le hpos

theorem chunkRead_eq_rdErr (h : s.st = .finalized → s.padLen.toNat / chunkBytes c ≤ k) : chunkRead c s k = .rdErr :=
  if_neg fun ⟨hst, hk⟩ => (h hst).not_gt (lt_chunkCount_iff.mpr hk)

/-- A slice of `CHUNK_SIZE` bytes below the end of the payload is a whole one. -/
theorem length_chunk (hlen : s.rawLen.toNat ≤ s.padLen.toNat) (hk : k < s.padLen.toNat / chunkBytes c) :
    (((paddedPayload s).drop (k * chunkBytes c)).take (chunkBytes c)).length = chunkBytes c := by
  rw [lt_chunkCount_iff, Nat.succ_mul] at hk
  rw [List.length_take, List.length_drop, length_paddedPayload hlen]
  omega

/-- The bytes of a chunk, read one by one, are its slice of the padded payload (R176). -/
theorem chunkRead_eq_slice (hst : s.st = .finalized) (hlen : s.rawLen.toNat ≤ s.padLen.toNat)
    (hk : k < s.padLen.toNat / chunkBytes c) :
    chunkRead c s k = .data (((paddedPayload s).drop (k * chunkBytes c)).take (chunkBytes c)) := by
  have hend := lt_chunkCount_iff.mp hk
  have hbytes : (List.range (chunkBytes c)).map (fun j => byteRead s (k * chunkBytes c + j)) =
      (((paddedPayload s).drop (k * chunkBytes c)).take (chunkBytes c)).map .data := by
    refine List.ext_getElem (by rw [List.length_map, List.length_map, List.length_range, length_chunk hlen hk]) ?_
    intro j hj _
    rw [List.length_map, List.length_range] at hj
    have ha : k * chunkBytes c + j < s.padLen.toNat := by
      rw [Nat.succ_mul] at hend
      omega
    simp only [List.getElem_map, List.getElem_range, List.getElem_take, List.getElem_drop]
    exact byteRead_eq_paddedPayload hst ha ((length_paddedPayload hlen).symm ▸ ha)
  rw [chunkRead, if_pos ⟨hst, hend⟩, hbytes, collectReadouts_map_data]

end

/-- Settles O34: a chunk below the count is read byte by byte from the padded payload; any other is `RD_ERR`. -/
theorem chunkReadSlicesPayload : Obligations.ChunkReadSlicesPayload := by
  refine ⟨⟨rfl, rfl⟩, fun s c k h => ⟨fun hst hk => ?_, fun _ hk => ?_, fun hst => ?_⟩⟩
  · obtain ⟨hlen, -⟩ := padLen_of_finalized h hst
    exact ⟨chunkRead_eq_slice hst hlen hk, length_chunk hlen hk⟩
  · exact chunkRead_eq_rdErr fun _ => hk
  · exact chunkRead_eq_rdErr fun hfin => absurd hfin hst

end Sys2Proof.Proofs
end

section
/-!
SUPPORT. Exceptions (R200 to R207): the legal-state table, the one shape of a fault raised outside FAULTED, and FAULTED itself.
-/

namespace Sys2Proof.Proofs

open Sys2Proof.Machine Sys2Proof.Laws Sys2Proof.Safety

/-! ### The legal-state table -/

section
variable {i : Instr} {st : St}

/-- The table R201 outside FAULTED: NOP everywhere, INIT outside BUILDING, the other commands in BUILDING. -/
theorem legalState_iff (hst : st ≠ .faulted) : legalState i st = true ↔
    i = .nop ∨ (st ≠ .building ∧ ∃ b, i = .init b) ∨ (st = .building ∧ ∀ b, i ≠ .init b) := by
  cases i with
  | nop | init => cases st <;> simp [legalState] at hst ⊢
  | setbrt | addmsg | setpix | final => simp [legalState]

/-- What the table R201 lacks outside FAULTED: INIT in BUILDING, and the commands but NOP and INIT elsewhere. -/
theorem legalState_eq_false (hst : st ≠ .faulted)
    (h : (st = .building ∧ ∃ b, i = .init b) ∨ (st ≠ .building ∧ i ≠ .nop ∧ ∀ b, i ≠ .init b)) :
    legalState i st = false := by
  rw [← Bool.not_eq_true, legalState_iff hst]
  obtain ⟨hb, b, rfl⟩ | ⟨hb, hnop, hinit⟩ := h
  · simp [hb]
  · simp [hb, hnop, hinit]

end

/-! ### Precise faults -/

section
variable {s t : State} {i : Instr} {w : Word}

/-- A command either keeps FAULT and does not enter FAULTED, or does nothing but raise one cause with its own word, SEQUENCE only
where the table R201 lacks it (R202, R203). -/
theorem keeps_fault_or_raises_of_does (h : Does s i t) :
    (t.fault = s.fault ∧ (t.st = .faulted → s.st = .faulted)) ∨
      ∃ c, t = s.raise c (encode i) ∧ (c = .sequence → legalState i s.st = false) := by
  cases h with
  | illegal _ _ _ => exact .inr ⟨.illegal, rfl, nofun⟩
  | sequence _ _ _ hl => exact .inr ⟨.sequence, rfl, fun _ => hl⟩
  | slotsFull _ _ _ _ _ => exact .inr ⟨.slotsFull, rfl, nofun⟩
  | lenOverflow _ _ _ _ _ _ => exact .inr ⟨.lenOverflow, rfl, nofun⟩
  | capacity _ _ _ _ _ _ _ => exact .inr ⟨.capacity, rfl, nofun⟩
  | size _ _ => exact .inr ⟨.size, rfl, nofun⟩
  | init _ _ _ => exact .inl ⟨rfl, nofun⟩
  | final _ _ => exact .inl ⟨rfl, nofun⟩
  | ignored _ _ => exact .inl ⟨rfl, id⟩
  | nop _ => exact .inl ⟨rfl, id⟩
  | setbrt _ _ _ => exact .inl ⟨rfl, id⟩
  | addmsg _ _ _ _ _ _ _ => exact .inl ⟨rfl, id⟩
  | oob _ _ _ _ _ => exact .inl ⟨rfl, id⟩
  | setpix _ _ _ _ _ _ _ => exact .inl ⟨rfl, id⟩

/-- Each cause has a bit of FAULT of its own (R28, R200). -/
theorem causeBit_getLsbD_causeCode {c d : Cause} : (causeBit c).getLsbD (causeCode d) = true ↔ c = d := by
  cases c <;> cases d <;> decide

/-- A command the table R201 allows leaves bit 1 of FAULT as it was. -/
theorem exec_keeps_sequence_bit (hl : legalState i s.st = true) (h : exec i s = .next t) :
    t.fault.getLsbD 1 = s.fault.getLsbD 1 := by
  obtain ⟨hf, -⟩ | ⟨c, rfl, hc⟩ := keeps_fault_or_raises_of_does (exec_does h)
  · rw [hf]
  · have hne : c ≠ .sequence := fun hseq => by simp [hc hseq] at hl
    have hbit : (causeBit c).getLsbD 1 = false :=
      Bool.eq_false_iff.mpr fun h1 => hne (causeBit_getLsbD_causeCode (d := .sequence).mp h1)
    rw [raise_fault, BitVec.getLsbD_or, hbit, Bool.or_false]

/-- A word that enters FAULTED does nothing but raise one cause with itself as FAULT_CMD (R203). -/
theorem eq_raise_of_issueWord (h : issueWord w s = .next t) (hst : s.st ≠ .faulted) (ht : t.st = .faulted) :
    ∃ c, t = s.raise c w := by
  rw [issueWord] at h
  split at h
  · next i hd =>
    obtain ⟨-, hkept⟩ | ⟨c, hraise, -⟩ := keeps_fault_or_raises_of_does (exec_does h)
    · exact absurd (hkept ht) hst
    · exact ⟨c, encode_of_decode hd ▸ hraise⟩
  · cases h
    exact ⟨.illegal, by rw [rejectWord, if_neg hst]⟩

/-- The cause codes are 0 to 5 (R200). -/
theorem causeCode_lt (c : Cause) : causeCode c < 6 := by
  cases c <;> decide

end

/-! ### FAULTED -/

/-- In FAULTED a word is ignored, whether or not it selects a command (R204). -/
theorem issueWord_faulted {s : State} {w : Word} (hst : s.st = .faulted) : issueWord w s = .next s.ignore := by
  rw [issueWord]
  split
  · exact exec_faulted hst
  · rw [rejectWord, if_pos hst]

/-! ### The obligations -/

/-- Settles O8: outside the table of R201 the dispatch raises SEQUENCE, and inside it nothing raises SEQUENCE. -/
theorem wrongStateLatchesSequence : Obligations.WrongStateLatchesSequence := by
  intro s i hst hw
  refine ⟨fun h => exec_sequence hst hw (legalState_eq_false hst h), fun h hf t ht => ?_⟩
  rw [exec_keeps_sequence_bit ((legalState_iff hst).mpr h) ht]
  simp [hf]

/-- Settles O9: the word is ignored, FAULTED lies outside both readable ranges, and the registers are always readable. -/
theorem faultedIgnoresEveryWord : Obligations.FaultedIgnoresEveryWord := by
  intro s w c rest hst hh
  obtain ⟨-, -, -, -, -, hfault, -⟩ := status_fields s
  refine ⟨(step_of_command hh).trans (issueWord_faulted hst), fun a => ?_, fun z k => ?_, rfl, hfault⟩
  · exact byteRead_eq_rdErr (by simp [hst]) (by simp [hst])
  · exact chunkRead_eq_rdErr (by simp [hst])

/-- Settles O10: fault entry is the only way from another state to FAULTED, and `afterFault` at a cause's code is fault entry. -/
theorem faultsArePrecise : Obligations.FaultsArePrecise := by
  intro s t w c rest hh h hst ht
  rw [step_of_command hh] at h
  obtain ⟨cause, hraise⟩ := eq_raise_of_issueWord h hst ht
  exact ⟨causeCode cause, causeCode_lt cause, hraise⟩

end Sys2Proof.Proofs
end

section
/-!
SUPPORT. Reset (R230): the step of an asserted reset, and FAULTED as a state that no command leaves.
-/

namespace Sys2Proof.Proofs

open Sys2Proof.Machine

section
variable {s t : State}

/-- A step with reset asserted is `assertReset` on the state whose action is consumed (R230). -/
theorem step_of_reset {bs : List Byte} {rest : List HostAct} (h : s.host = .reset bs :: rest) :
    step s = .next ((s.setHost rest).assertReset bs) := by
  rw [step, h]
  rfl

/-- Among the moves of R23 only reset starts in FAULTED and ends elsewhere (R204, R230). -/
theorem reset_of_step_leaves_faulted (h : step s = .next t) (hs : s.st = .faulted) (ht : t.st ≠ .faulted) :
    ∃ bs rest, s.host = .reset bs :: rest := by
  obtain hkept | ⟨-, -, -, -, hnot, -⟩ | ⟨bs, rest, hh, -⟩ := stMovesOnlyAsStated.2 s t h
  · exact absurd (hkept.trans hs) ht
  · exact absurd hs hnot
  · exact ⟨bs, rest, hh⟩

end

/-- Settles O38: the state an asserted reset leaves has every register at its value of R40, and no other move leaves FAULTED. -/
theorem resetSetsRegistersAndAloneLeavesFaulted : Obligations.ResetSetsRegistersAndAloneLeavesFaulted :=
  ⟨fun _ _ _ hh => ⟨_, _, _, _, step_of_reset hh⟩, fun _ _ => reset_of_step_leaves_faulted⟩

end Sys2Proof.Proofs
end

section
/-!
SUPPORT. The round trips of the encoding (R80 to R89): the fields of the words of formats M and P, and a command as its word.
-/

namespace Sys2Proof.Proofs

open Sys2Proof.Laws Sys2Proof.Safety

/-! ### The fields of formats M and P -/

section
variable (b d v : Bool) (s : BitVec 3) (m y : BitVec 4) (n : BitVec 19) (x : BitVec 23)

@[simp] theorem blk_addmsg : (encode (.addmsg b d s m n)).getLsbD 27 = b := by
  simp only [encode, BitVec.getLsbD_append]
  simp

@[simp] theorem brd_addmsg : (encode (.addmsg b d s m n)).getLsbD 26 = d := by
  simp only [encode, BitVec.getLsbD_append]
  simp

@[simp] theorem spd_addmsg : (encode (.addmsg b d s m n)).extractLsb' 23 3 = s := by
  unfold encode
  rw [extractLsb'_append_high _ _ _ _ (by omega), extractLsb'_append_high _ _ _ _ (by omega),
    extractLsb'_append_low _ _ _ _ (by omega), extractLsb'_whole]

@[simp] theorem ngrp_addmsg : (encode (.addmsg b d s m n)).extractLsb' 0 19 = n := by
  unfold encode
  rw [extractLsb'_append_low _ _ _ _ (by omega), extractLsb'_whole]

@[simp] theorem v_setpix : (encode (.setpix v y x)).getLsbD 27 = v := by
  simp only [encode, BitVec.getLsbD_append]
  simp

@[simp] theorem y_setpix : (encode (.setpix v y x)).extractLsb' 23 4 = y := by
  unfold encode
  rw [extractLsb'_append_high _ _ _ _ (by omega), extractLsb'_append_low _ _ _ _ (by omega), extractLsb'_whole]

@[simp] theorem x_setpix : (encode (.setpix v y x)).extractLsb' 0 23 = x := by
  unfold encode
  rw [extractLsb'_append_low _ _ _ _ (by omega), extractLsb'_whole]

end

/-! ### The obligations -/

/-- Settles O1: the word of a command has its row's OP, so the decoder reads the row's fields back. -/
theorem decodeEncodeRoundTrip : Obligations.DecodeEncodeRoundTrip := by
  intro i
  cases i with
  | nop => rfl
  | init brt => rw [decode_of_op_init (opField_init brt), if_pos (rsvd_init brt), brt_init]
  | setbrt brt => rw [decode_of_op_setbrt (opField_setbrt brt), if_pos (rsvd_setbrt brt), brt_setbrt]
  | addmsg blk brd spd mode ngrp =>
    rw [decode_of_op_addmsg (opField_addmsg blk brd spd mode ngrp), blk_addmsg, brd_addmsg, spd_addmsg, mode_addmsg,
      ngrp_addmsg]
  | setpix v y x => rw [decode_of_op_setpix (opField_setpix v y x), v_setpix, y_setpix, x_setpix]
  | final => rfl

/-- Settles O2: the fields the decoder read fill the word. -/
theorem encodeDecodeRoundTrip : Obligations.EncodeDecodeRoundTrip :=
  fun _ _ => encode_of_decode

/-- Settles O3: a word that passes `encoding_ok` decodes, and `encoding_ok` of a word that decodes is well-formedness. -/
theorem legalWordsAreWellFormedCommands : Obligations.LegalWordsAreWellFormedCommands := by
  refine fun w => ⟨encodingOk_iff_wordLegal w, ?_⟩
  rw [← encodingOk_iff_wordLegal]
  constructor
  · intro hok
    obtain ⟨i, hd⟩ := decode_of_encodingOk hok
    exact ⟨i, hd, encodingOk_of_decode hd ▸ hok⟩
  · rintro ⟨i, hd, hw⟩
    rwa [encodingOk_of_decode hd]

end Sys2Proof.Proofs
end

section
/-!
SUPPORT. The invariant (R41 with R23 to R30): what each command leaves of it, and that no step stops a state that meets it.
-/

namespace Sys2Proof.Proofs

open Sys2Proof.Machine Sys2Proof.Laws Sys2Proof.Safety

/-! ### What keeps the invariant -/

section
variable {s t : State}

/-- An open payload is not empty (R25). -/
theorem rawLen_ne_zero_of_layout (h : Layout s) : s.rawLen ≠ 0 := by
  have hlen := hdrLen_le_rawLen h
  intro hz
  simp [hz, hdrLen] at hlen

/-- The layout does not depend on the status registers, on PAD_LEN, or on what surrounds the PEF. -/
theorem layout_withStatus (hc : s.count.toNat ≤ 8) (h : Layout s) (st : St) (p : BitVec 32) (l : Last) (f : BitVec 6)
    (w : Word) (c : Rtc) (acts : List HostAct) :
    Layout { s with st := st, padLen := p, last := l, fault := f, faultCmd := w, rtc := c, host := acts } :=
  layout_congr hc rfl rfl rfl rfl rfl (fun _ _ => rfl) h

/-- Another LAST fit for the state, another time on the port and other actions to come keep the invariant (R20, R27, R33). -/
theorem inv_withLast (h : Inv s) {l : Last} (hf : s.st = .faulted → l = .fault ∨ l = .ignored)
    (hn : s.st ≠ .faulted → l = .ok ∨ l = .oob) (c : Rtc) (acts : List HostAct) :
    Inv { s with last := l, rtc := c, host := acts } where
  bufWf := h.bufWf
  countLe := h.countLe
  unopened := h.unopened
  opened := fun hr => layout_withStatus h.countLe (h.opened hr) _ _ _ _ _ _ _
  idle := h.idle
  building := h.building
  finalized := h.finalized
  faulted := fun hst => ⟨(h.faulted hst).1, hf hst⟩
  notFaulted := fun hst => ⟨(h.notFaulted hst).1, (h.notFaulted hst).2.1, hn hst⟩

/-- Presenting a time and taking an action from the host keep the invariant (R20, R33). -/
theorem inv_withPort (h : Inv s) (c : Rtc) (acts : List HostAct) : Inv ((s.setHost acts).setRtc c) :=
  inv_withLast h (fun hst => (h.faulted hst).2) (fun hst => (h.notFaulted hst).2.2) c acts

theorem inv_setLast (h : Inv s) (hst : s.st ≠ .faulted) {l : Last} (hl : l = .ok ∨ l = .oob) : Inv (s.setLast l) :=
  inv_withLast h (fun hf => absurd hf hst) (fun _ => hl) _ _

theorem inv_ignore (h : Inv s) (hst : s.st = .faulted) : Inv s.ignore :=
  inv_withLast h (fun _ => .inr rfl) (fun hn => absurd hst hn) _ _

/-- Fault entry latches its cause alone, because outside FAULTED none is latched (R28, R203). -/
theorem inv_raise (h : Inv s) (hst : s.st ≠ .faulted) (c : Cause) (w : Word) : Inv (s.raise c w) where
  bufWf := h.bufWf
  countLe := h.countLe
  unopened := h.unopened
  opened := fun hr => layout_withStatus h.countLe (h.opened hr) _ _ _ _ _ _ _
  idle := nofun
  building := nofun
  finalized := nofun
  faulted := fun _ => ⟨⟨c, by simp [(h.notFaulted hst).1]⟩, .inl rfl⟩
  notFaulted := fun hn => absurd rfl hn

/-- The invariant of an open payload is its layout: the registers it leaves free are fixed in BUILDING (R23, R26, R28). -/
theorem inv_of_building (hst : t.st = .building) (hwf : t.buf.wf t.params.rawCapacity = true) (hc : t.count.toNat ≤ 8)
    (hlay : Layout t) (hp : t.padLen = 0) (hf : t.fault = 0) (hw : t.faultCmd = 0) (hl : t.last = .ok) : Inv t where
  bufWf := hwf
  countLe := hc
  unopened := fun hr => absurd hr (rawLen_ne_zero_of_layout hlay)
  opened := fun _ => hlay
  idle := by simp [hst]
  building := fun _ => ⟨rawLen_ne_zero_of_layout hlay, hp⟩
  finalized := by simp [hst]
  faulted := by simp [hst]
  notFaulted := fun _ => ⟨hf, hw, .inl hl⟩

/-- INIT opens a payload from a state in which no fault is latched (R112). -/
theorem inv_openPayload (h : Inv s) (hst : s.st ≠ .faulted) {brt : Byte} (hb : brt ∈ brightnessCodes) :
    Inv (openPayload brt s) := by
  obtain ⟨hf, hw, -⟩ := h.notFaulted hst
  exact inv_of_building rfl (wf_initHeader _ _ _ h.bufWf) (Nat.zero_le _) (layout_openPayload s hb) rfl hf hw rfl

/-- A command that completes in BUILDING without touching ST, PAD_LEN or the fault registers keeps the invariant if it keeps the
layout. -/
theorem inv_of_completes (h : Inv s) (hs : s.st = .building) (hst : t.st = s.st) (hp : t.padLen = s.padLen)
    (hf : t.fault = s.fault) (hw : t.faultCmd = s.faultCmd) (hl : t.last = .ok)
    (hwf : t.buf.wf t.params.rawCapacity = true) (hc : t.count.toNat ≤ 8) (hlay : Layout t) : Inv t := by
  obtain ⟨hf0, hw0, -⟩ := h.notFaulted (not_faulted_of_building hs)
  exact inv_of_building (hst.trans hs) hwf hc hlay (hp.trans (h.building hs).2) (hf.trans hf0) (hw.trans hw0) hl

/-- The layout asks of the brightness byte only that it is a code (R41, R91, R116). -/
theorem layout_overwriteBrightness (h : Layout s) {brt : Byte} (hb : brt ∈ brightnessCodes) :
    Layout (overwriteBrightness brt s) := by
  have other : ∀ a, a ≠ magicLen s.params → (overwriteBrightness brt s).load a = s.load a :=
    fun a ha => (load_overwriteBrightness s brt a).trans (if_neg ha)
  have hslot : ∀ i, (overwriteBrightness brt s).slotLen i = s.slotLen i := fun i =>
    slotLen_congr (overwriteBrightness_params ..) (other _ (by unfold offLen; omega)) (other _ (by unfold offLen; omega))
  have hspd : ∀ i, (overwriteBrightness brt s).spdModeByte i = s.spdModeByte i := fun i =>
    other _ (by simp only [offSpdMode, overwriteBrightness_params]; omega)
  have hblink : (overwriteBrightness brt s).blinkByte = s.blinkByte :=
    other _ (by simp only [offBlink, overwriteBrightness_params]; omega)
  have hborder : (overwriteBrightness brt s).borderByte = s.borderByte :=
    other _ (by simp only [offBorder, overwriteBrightness_params]; omega)
  exact {
    magic := fun i hi => (other i hi.ne).trans (h.magic i hi)
    brightness := by
      rwa [State.brightnessByte, load_overwriteBrightness, overwriteBrightness_params, if_pos rfl]
    reserved1 := fun j hj =>
      (other _ (by simp only [offReserved1, overwriteBrightness_params]; omega)).trans (h.reserved1 j hj)
    reserved2 := fun j hj =>
      (other _ (by simp only [offReserved2, overwriteBrightness_params]; omega)).trans (h.reserved2 j hj)
    unusedSlots := fun i hi hci => by
      rw [hslot, hspd, hblink, hborder]
      exact h.unusedSlots i hi hci
    packed := fun i hi => by
      rw [hspd]
      exact h.packed i hi
    rawLength := h.rawLength.trans (by
      rw [overwriteBrightness_params, overwriteBrightness_count, lenSum_congr fun i _ => hslot i])
    inCapacity := h.inCapacity
    viewStart := h.viewStart
    viewEnd := h.viewEnd
    viewLatest := fun h0 => by
      rw [hslot, slotBase_congr (overwriteBrightness_params ..) fun i _ => hslot i]
      exact h.viewLatest h0 }

theorem inv_overwriteBrightness (h : Inv s) (hst : s.st = .building) {brt : Byte} (hb : brt ∈ brightnessCodes) :
    Inv (overwriteBrightness brt s) :=
  have hin : offBrightness s.params < s.params.rawCapacity := by
    have := header_offsets s.params
    have : hdrLen s.params ≤ s.params.rawCapacity := s.params.hdrFits
    omega
  inv_of_completes h hst rfl rfl rfl rfl rfl (wf_write _ h.bufWf hin) h.countLe
    (layout_overwriteBrightness (layout_of_building h hst) hb)

theorem inv_appendSlot (h : Inv s) (hst : s.st = .building) {sty : Style} {n : BitVec 19} (hm : sty.mode.toNat ≤ 8)
    (hc : s.count.toNat ≠ 8) (hn : n.toNat ≤ 65535) (hr : s.rawLen.toNat + 11 * n.toNat ≤ s.params.rawCapacity) :
    Inv (appendSlot sty n s) := by
  have hlt : s.count.toNat < 8 := Nat.lt_of_le_of_ne h.countLe hc
  refine inv_of_completes h hst rfl rfl rfl rfl rfl (wf_zeroRange _ _ (wf_slotHeader _ (by omega) _ _ h.bufWf)) ?_
    (layout_appendSlot s sty n hlt hm hn hr (layout_of_building h hst))
  rwa [appendSlot_count_toNat s sty n hlt]

/-- An in-bounds pixel lies between the header and the end of the payload (R30, R154). -/
theorem viewPixAddr_lt_rawLen (h : Layout s) {x : BitVec 23} {y : BitVec 4} (hy : y.toNat < 11)
    (hx : x.toNat < 8 * s.viewGroups.toNat) : viewPixAddr s x y < s.rawLen.toNat :=
  h.viewEnd ▸ (viewPixAddr_mem_view hy hx).2

theorem inv_writePixel (h : Inv s) (hst : s.st = .building) (v : Bool) {y : BitVec 4} {x : BitVec 23} (hy : y.toNat < 11)
    (hx : x.toNat < 8 * s.viewGroups.toNat) : Inv (writePixel (viewPixAddr s x y) x v s) := by
  have hlay := layout_of_building h hst
  have habove := hdrLen_le_viewPixAddr hlay x y
  have hin := (viewPixAddr_lt_rawLen hlay hy hx).trans_le hlay.inCapacity
  refine inv_of_completes h hst rfl rfl rfl rfl rfl (wf_write _ h.bufWf hin) h.countLe ?_
  exact layout_congr h.countLe rfl rfl rfl rfl rfl
    (fun a ha => (load_writePixel s _ x v a).trans (if_neg (ha.trans_le habove).ne)) hlay

/-- FINAL seals an open payload at its padded length, which its check keeps within the limit (R26, R172). -/
theorem inv_sealPayload (h : Inv s) (hst : s.st = .building) (hp : padLength s.rawLen.toNat ≤ 8192) :
    Inv (sealPayload s) where
  bufWf := h.bufWf
  countLe := h.countLe
  unopened := fun hr => absurd hr (h.building hst).1
  opened := fun hr => layout_withStatus h.countLe (h.opened hr) _ _ _ _ _ _ _
  idle := nofun
  building := nofun
  finalized := fun _ => by
    have hpad : (sealPayload s).padLen.toNat = padLength s.rawLen.toNat := Nat.mod_eq_of_lt (by omega)
    exact ⟨(h.building hst).1, hpad, hpad ▸ hp⟩
  faulted := nofun
  notFaulted := fun _ =>
    have hs := h.notFaulted (not_faulted_of_building hst)
    ⟨hs.1, hs.2.1, .inl rfl⟩

/-- Reset leaves nothing opened and nothing latched, whatever the draw for BUF (R40, R230). -/
theorem inv_assertReset (s : State) (bs : List Byte) : Inv (s.assertReset bs) where
  bufWf := wf_ofBytes _ _
  countLe := Nat.zero_le _
  unopened := fun _ => ⟨rfl, rfl, rfl, rfl⟩
  opened := fun hr => absurd rfl hr
  idle := fun _ => rfl
  building := nofun
  finalized := nofun
  faulted := nofun
  notFaulted := fun _ => ⟨rfl, rfl, .inl rfl⟩

/-- Every case of the dispatch and of the command rules keeps the invariant. -/
theorem inv_of_does {i : Instr} (hinv : Inv s) (h : Does s i t) : Inv t := by
  cases h with
  | ignored _ hf => exact inv_ignore hinv hf
  | illegal _ hf _ => exact inv_raise hinv hf _ _
  | sequence _ hf _ _ => exact inv_raise hinv hf _ _
  | nop hf => exact inv_setLast hinv hf (.inl rfl)
  | init brt hst hb =>
    have hf : s.st ≠ .faulted := fun hf => by simp [hf] at hst
    exact inv_openPayload hinv hf hb
  | setbrt brt hst hb => exact inv_overwriteBrightness hinv hst hb
  | slotsFull _ _ hst _ _ => exact inv_raise hinv (not_faulted_of_building hst) _ _
  | lenOverflow _ _ hst _ _ _ => exact inv_raise hinv (not_faulted_of_building hst) _ _
  | capacity _ _ hst _ _ _ _ => exact inv_raise hinv (not_faulted_of_building hst) _ _
  | addmsg sty n hst hm hc hn hr => exact inv_appendSlot hinv hst hm hc hn hr
  | oob _ _ _ hst _ => exact inv_setLast hinv (not_faulted_of_building hst) (.inr rfl)
  | setpix v y x hst hy hx _ => exact inv_writePixel hinv hst v hy hx
  | size hst _ => exact inv_raise hinv (not_faulted_of_building hst) _ _
  | final hst hp => exact inv_sealPayload hinv hst hp

theorem inv_rejectWord (h : Inv s) (w : Word) : Inv (rejectWord w s) := by
  rw [rejectWord]
  split
  · next hst => exact inv_ignore h hst
  · next hst => exact inv_raise h hst _ _

end

/-- Settles O42: State.reset is what an asserted reset leaves when nothing is drawn for BUF. -/
theorem invariantHoldsAtReset : Obligations.InvariantHoldsAtReset := inv_assertReset .reset []

/-- Settles O43: by the cases of a step. -/
theorem everyStepKeepsInvariant : Obligations.EveryStepKeepsInvariant := by
  intro s t hinv h
  obtain ⟨-, rfl⟩ | ⟨bs, rest, -, rfl⟩ | ⟨w, c, rest, i, -, -, hdoes⟩ | ⟨w, c, rest, e, -, -, rfl⟩ := step_cases h
  · exact hinv
  · exact inv_assertReset _ bs
  · exact inv_of_does (inv_withPort hinv c rest) hdoes
  · exact inv_rejectWord (inv_withPort hinv c rest) w

/-! ### Stops -/

section
variable {s : State} {i : Instr}

/-- The model's stop: an in-bounds pixel whose byte lies outside `BUF` (R50; log entry 10). -/
theorem exec_setpix_outsideBuf {v : Bool} {y : BitVec 4} {x : BitVec 23} (hst : s.st = .building) (hy : y.toNat < 11)
    (hx : x.toNat < 8 * s.viewGroups.toNat) (ha : s.params.rawCapacity ≤ viewPixAddr s x y) :
    exec (.setpix v y x) s = .fault (.outsideBuf (viewPixAddr s x y)) := by
  have hin : pixInBounds s.viewGroups.toNat x.toNat y.toNat = true := (pixInBounds_iff _ _ _).mpr ⟨hy, hx⟩
  rw [exec_setpix hst, effect, if_neg (by simp [hin]), if_neg ha.not_gt]

/-- In a state that meets the invariant every in-bounds pixel lies in `BUF` (R154). -/
theorem exec_ne_fault_of_inv (h : Inv s) (f : Fault) : exec i s ≠ .fault f := by
  intro hf
  obtain ⟨v, y, x, -, hst, hy, hx, -, ha⟩ := exec_fault hf
  have hlay := layout_of_building h hst
  exact ha.not_gt ((viewPixAddr_lt_rawLen hlay hy hx).trans_le hlay.inCapacity)

/-- In a state that meets the invariant every command answers a next state. -/
theorem exec_completes (i : Instr) (h : Inv s) : ∃ t, exec i s = .next t := by
  cases he : exec i s with
  | next t => exact ⟨t, rfl⟩
  | fault f => exact absurd he (exec_ne_fault_of_inv h f)
  | refused r => exact absurd he (exec_not_refused i s r)

theorem issueWord_completes (w : Word) (h : Inv s) : ∃ t, issueWord w s = .next t := by
  rw [issueWord]
  split
  · next i _ => exact exec_completes i h
  · exact ⟨_, rfl⟩

end

/-- Settles O29: the fault is SETPIX's own, and under the invariant its guard fails. -/
theorem stopsOnlyOutsideBuf : Obligations.StopsOnlyOutsideBuf := by
  refine fun i s => ⟨fun f => ⟨fun h => ?_, ?_⟩, exec_not_refused i s, exec_ne_fault_of_inv⟩
  · obtain ⟨v, y, x, hi, hst, hy, hx, hf, ha⟩ := exec_fault h
    exact ⟨v, y, x, hi, hst, hy, hx, ha, hf⟩
  · rintro ⟨v, y, x, rfl, hst, hy, hx, ha, rfl⟩
    exact exec_setpix_outsideBuf hst hy hx ha

/-- Settles O44: by the host's next action, a command completing under the invariant. -/
theorem everyStepCompletes : Obligations.EveryStepCompletes := by
  intro s hinv
  cases hh : s.host with
  | nil => exact ⟨s, by rw [step, hh]⟩
  | cons a rest =>
    cases a with
    | reset bs => exact ⟨_, step_of_reset hh⟩
    | command w c =>
      rw [step_of_command hh]
      exact issueWord_completes w (inv_withPort hinv c rest)

end Sys2Proof.Proofs
end

section
/-!
SUPPORT. Commands as a whole (R22, R27, R33): `Does` is exactly what a command does, what LAST says of each of its cases, and the
registers and ports a command has no use for.
-/

namespace Sys2Proof.Proofs

open Sys2Proof.Machine Sys2Proof.Laws Sys2Proof.Safety

section
variable {s t : State} {i : Instr}

/-- The converse of `exec_does`: the guards of a case select it. -/
theorem exec_of_does (h : Does s i t) : exec i s = .next t := by
  cases h with
  | ignored _ hf => exact exec_faulted hf
  | illegal _ hf hw => exact exec_illegal hf hw
  | sequence _ hf hw hl => exact exec_sequence hf hw hl
  | nop hf => exact exec_nop hf
  | init brt hst hb => exact exec_init hst hb
  | setbrt brt hst hb => exact exec_setbrt hst hb
  | slotsFull sty n hst hm hc => exact exec_addmsg_slotsFull hst hm hc
  | lenOverflow sty n hst hm hc hn => exact exec_addmsg_lenOverflow hst hm hc hn
  | capacity sty n hst hm hc hn hr => exact exec_addmsg_capacity hst hm hc hn hr
  | addmsg sty n hst hm hc hn hr => exact exec_addmsg_appends hst hm hc hn hr
  | oob v y x hst ho => exact exec_setpix_oob hst ho
  | setpix v y x hst hy hx ha => exact exec_setpix_writes hst hy hx ha
  | size hst hp => exact exec_final_size hst hp
  | final hst hp => exact exec_final_seals hst hp

/-- What LAST and ST say together of a command outside FAULTED (R27). -/
theorem last_of_does (h : Does s i t) (hf : s.st ≠ .faulted) :
    (t.last = .fault ∧ t.st = .faulted) ∨ (t.last = .ok ∧ t.st ≠ .faulted) ∨
      (t.last = .oob ∧ t.st ≠ .faulted ∧ (∃ v y x, i = .setpix v y x) ∧ t = s.setLast .oob) := by
  cases h with
  | ignored _ hf' => exact absurd hf' hf
  | illegal | sequence | slotsFull | lenOverflow | capacity | size => exact .inl ⟨rfl, rfl⟩
  | nop | setbrt | addmsg | setpix => exact .inr (.inl ⟨rfl, hf⟩)
  | init | final => exact .inr (.inl ⟨rfl, nofun⟩)
  | oob v y x _ _ => exact .inr (.inr ⟨rfl, hf, ⟨v, y, x, rfl⟩, rfl⟩)

theorem eq_ignore_of_does (h : Does s i t) (hf : s.st = .faulted) : t = s.ignore := by
  have hexec := exec_of_does h
  rw [exec_faulted hf] at hexec
  cases hexec
  rfl

/-- No case but INIT's reads the RTC port (R33). -/
theorem does_setRtc (h : Does s i t) (hi : ∀ b, i ≠ .init b) (c : Rtc) : Does (s.setRtc c) i (t.setRtc c) := by
  cases h with
  | ignored _ hf => exact .ignored _ hf
  | illegal _ hf hw => exact .illegal _ hf hw
  | sequence _ hf hw hl => exact .sequence _ hf hw hl
  | nop hf => exact .nop hf
  | init brt _ _ => exact absurd rfl (hi brt)
  | setbrt brt hst hb => exact .setbrt brt hst hb
  | slotsFull sty n hst hm hc => exact .slotsFull sty n hst hm hc
  | lenOverflow sty n hst hm hc hn => exact .lenOverflow sty n hst hm hc hn
  | capacity sty n hst hm hc hn hr => exact .capacity sty n hst hm hc hn hr
  | addmsg sty n hst hm hc hn hr => exact .addmsg sty n hst hm hc hn hr
  | oob v y x hst ho => exact .oob v y x hst ho
  | setpix v y x hst hy hx ha => exact .setpix v y x hst hy hx ha
  | size hst hp => exact .size hst hp
  | final hst hp => exact .final hst hp

/-- RAW_LEN is written by INIT and by an ADDMSG that appends, whose sum does not wrap (R9, R22, R137). -/
theorem rawLen_of_does (h : Does s i t) (hi : ∀ b, i ≠ .init b) :
    t.rawLen = s.rawLen ∨
      ∃ (sty : Style) (n : BitVec 19), i = .addmsg sty.blink sty.border sty.speed sty.mode n ∧
        t.rawLen.toNat = s.rawLen.toNat + 11 * n.toNat := by
  cases h with
  | init brt _ _ => exact absurd rfl (hi brt)
  | addmsg sty n _ _ _ _ hr => exact .inr ⟨sty, n, rfl, appendSlot_rawLen_toNat s sty n hr⟩
  | ignored | illegal | sequence | nop | setbrt | slotsFull | lenOverflow | capacity | oob | setpix | size | final =>
    exact .inl rfl

end

/-! ### The obligations -/

/-- Settles O6: the word of the action decodes, so issuing it is `exec`. -/
theorem stepRunsDecodedCommand : Obligations.StepRunsDecodedCommand := by
  intro s w c rest i hh hd
  rw [step_of_command hh, issueWord, hd]
  rfl

/-- Settles O12: in FAULTED the command is ignored; elsewhere LAST tells the three remaining kinds of end apart. -/
theorem lastReportsTheCommand : Obligations.LastReportsTheCommand := by
  intro i s t h
  by_cases hf : s.st = .faulted
  · obtain rfl := eq_ignore_of_does (exec_does h) hf
    simp [hf]
  · obtain ⟨hl, hst⟩ | ⟨hl, hst⟩ | ⟨hl, hst, hi, ht⟩ := last_of_does (exec_does h) hf
    · simp [hl, hst, hf]
    · simp [hl, hst, hf]
    · exact ⟨by simp [hl, hf], by simp [hl, hst], fun _ => ⟨hi, ht⟩⟩

/-- Settles O18: the case of the command is the same with the other time on the port. -/
theorem rtcIsReadOnlyByInit : Obligations.RtcIsReadOnlyByInit :=
  fun _ _ _ c hi h => exec_of_does (does_setRtc (exec_does h) hi c)

/-- Settles O49: the two ways a command other than INIT leaves RAW_LEN. -/
theorem rawLenOnlyGrows : Obligations.RawLenOnlyGrows := by
  intro i s t hi h
  obtain hr | ⟨sty, n, rfl, hr⟩ := rawLen_of_does (exec_does h) hi
  · exact ⟨hr ▸ le_rfl, fun hne => absurd hr hne⟩
  · exact ⟨by omega, fun _ => ⟨_, _, _, _, n, rfl, hr⟩⟩

end Sys2Proof.Proofs
end

section
/-!
SUPPORT. The new slot and its pixels (R136 to R139, R150 to R156): the header fields and the region ADDMSG leaves, and SETPIX on the
pixel grid of the view.
-/

namespace Sys2Proof.Proofs

open Sys2Proof.Machine Sys2Proof.Laws Sys2Proof.Safety

/-! ### The slot ADDMSG appends -/

section
variable {s t : State} {sty : Style} {n : BitVec 19} {a : Nat}

/-- An ADDMSG that ends with OK is one that appended its slot, every check passed (R137). -/
theorem eq_appendSlot_of_does_addmsg {blk brd : Bool} {spd : BitVec 3} {mode : BitVec 4}
    (h : Does s (.addmsg blk brd spd mode n) t) (hok : t.last = .ok) :
    t = appendSlot ⟨blk, brd, spd, mode⟩ n s ∧ n.toNat ≤ 65535 := by
  cases h with
  | addmsg _ _ _ _ _ hn _ => exact ⟨rfl, hn⟩
  | ignored | illegal | sequence | slotsFull | lenOverflow | capacity => cases hok

/-- The zeros of the new region (R137). -/
theorem load_appendSlot_region (hlo : s.rawLen.toNat ≤ a) (hhi : a < s.rawLen.toNat + 11 * n.toNat) :
    (appendSlot sty n s).load a = 0 := by
  rw [load_appendSlot, if_pos ⟨hlo, hhi⟩]

/-- The header after ADDMSG, its fields in rising order of address (R55, R137). -/
theorem load_appendSlot_ascending (hh : hdrLen s.params ≤ s.rawLen.toNat) (hc : s.count.toNat < 8)
    (ha : a < hdrLen s.params) :
    (appendSlot sty n s).load a =
      if a = offBlink s.params then setBit (s.load a) s.count.toNat sty.blink
      else if a = offBorder s.params then setBit (s.load a) s.count.toNat sty.border
      else if a = offSpdMode s.params s.count.toNat then spdMode sty.speed sty.mode
      else if a = offLen s.params s.count.toNat then n.extractLsb' 8 8
      else if a = offLen s.params s.count.toNat + 1 then n.extractLsb' 0 8
      else s.load a := by
  rw [load_appendSlot, if_neg (by omega)]
  exact read_slotHeader_ascending s.params hc sty n s.buf a

/-- Outside the header and the new region ADDMSG writes no byte (R137). -/
theorem load_appendSlot_outside (hc : s.count.toNat < 8) (hlo : hdrLen s.params ≤ a)
    (hr : a < s.rawLen.toNat ∨ s.rawLen.toNat + 11 * n.toNat ≤ a) : (appendSlot sty n s).load a = s.load a := by
  rw [load_appendSlot, if_neg (by omega), read_slotHeader_ascending s.params hc]
  simp only [hdrLen, offBlink, offBorder, offSpdMode, offLen] at hlo ⊢
  rw [if_neg (by omega), if_neg (by omega), if_neg (by omega), if_neg (by omega), if_neg (by omega)]
  rfl

section
variable (hh : hdrLen s.params ≤ s.rawLen.toNat) (hc : s.count.toNat < 8)
include hh hc

theorem blinkByte_appendSlot : (appendSlot sty n s).blinkByte = setBit s.blinkByte s.count.toNat sty.blink := by
  rw [State.blinkByte, appendSlot_params,
    load_appendSlot_ascending hh hc (by simp only [offBlink, hdrLen]; omega), if_pos rfl, State.blinkByte]

theorem borderByte_appendSlot : (appendSlot sty n s).borderByte = setBit s.borderByte s.count.toNat sty.border := by
  rw [State.borderByte, appendSlot_params,
    load_appendSlot_ascending hh hc (by simp only [offBorder, hdrLen]; omega),
    if_neg (by simp only [offBorder, offBlink]; omega), if_pos rfl, State.borderByte]

theorem spdModeByte_appendSlot : (appendSlot sty n s).spdModeByte s.count.toNat = spdMode sty.speed sty.mode := by
  rw [State.spdModeByte, appendSlot_params,
    load_appendSlot_ascending hh hc (by simp only [offSpdMode, hdrLen]; omega),
    if_neg (by simp only [offSpdMode, offBlink]; omega), if_neg (by simp only [offSpdMode, offBorder]; omega), if_pos rfl]

theorem slotLen_appendSlot (hn : n.toNat ≤ 65535) : (appendSlot sty n s).slotLen s.count.toNat = n.toNat := by
  rw [State.slotLen, appendSlot_params, load_appendSlot_header s sty n hh (by simp only [offLen, hdrLen]; omega),
    load_appendSlot_header s sty n hh (by simp only [offLen, hdrLen]; omega), if_neg (by omega), if_pos rfl, if_pos rfl]
  exact length_bytes n hn

end

/-- The rows and columns of the new view are those of the new region (R137). -/
theorem viewGroups_appendSlot_toNat (hn : n.toNat ≤ 65535) : (appendSlot sty n s).viewGroups.toNat = n.toNat :=
  view_groups n hn

end

/-- Settles O22: the view is the zeroed region. -/
theorem freshRegionIsDark : Obligations.FreshRegionIsDark := by
  intro s t blk brd spd mode n h hok x y hx hy
  obtain ⟨rfl, hn⟩ := eq_appendSlot_of_does_addmsg (exec_does h) hok
  rw [viewGroups_appendSlot_toNat hn] at hx
  obtain ⟨hlo, hhi⟩ := pixAddr_mem s.rawLen.toNat n.toNat x y hy hx
  rw [State.pixelOn, appendSlot_viewBase, load_appendSlot_region hlo hhi]
  simp

/-- Settles O23: the view starts at the old RAW_LEN, and SETPIX writes in the view alone. -/
theorem viewMovesToNewSlot : Obligations.ViewMovesToNewSlot := by
  intro s t u blk brd v spd mode y n x h hok hu a ha
  obtain ⟨rfl, -⟩ := eq_appendSlot_of_does_addmsg (exec_does h) hok
  exact load_of_does_setpix (exec_does hu) (.inl ha)

/-- Settles O21: the slot appended for a count of 0 has an empty region and an empty view. -/
theorem zeroWidthMessageIsEmptySlot : Obligations.ZeroWidthMessageIsEmptySlot := by
  intro s blk brd spd mode hinv hst hm hc
  have hlay := layout_of_building hinv hst
  have hh := hdrLen_le_rawLen hlay
  have hr : s.rawLen.toNat + 11 * (0 : BitVec 19).toNat ≤ s.params.rawCapacity := hlay.inCapacity
  have hn : (0 : BitVec 19).toNat ≤ 65535 := by decide
  refine ⟨appendSlot ⟨blk, brd, spd, mode⟩ 0 s, exec_addmsg_appends hst hm hc.ne hn hr, rfl, ?raw,
    appendSlot_count_toNat s _ 0 hc, rfl, rfl, slotLen_appendSlot hh hc hn, ?packed, ?blink, ?border, fun a ha => ?frame,
    fun v y x => exec_setpix_oob hst (.inr (Nat.zero_le _))⟩
  case raw => exact BitVec.eq_of_toNat_eq (appendSlot_rawLen_toNat s _ 0 hr)
  case packed =>
    rw [spdModeByte_appendSlot hh hc, spdMode_eq_ofNat]
    exact Nat.mod_eq_of_lt (by omega)
  case blink => rw [blinkByte_appendSlot hh hc, getLsbD_setBit _ _ _ _ hc, if_pos rfl]
  case border => rw [borderByte_appendSlot hh hc, getLsbD_setBit _ _ _ _ hc, if_pos rfl]
  case frame => exact load_appendSlot_outside hc ha (Nat.lt_or_ge _ _)

/-! ### The pixel grid -/

/-- Two pixels of the view are the same exactly when they share the byte and the column in it (R58). -/
theorem pixel_eq_iff {base x y x' y' : Nat} (hy : y < 11) (hy' : y' < 11) :
    x' = x ∧ y' = y ↔ pixAddr base x' y' = pixAddr base x y ∧ x % 8 = x' % 8 := by
  rw [pixAddr_inj _ _ _ _ _ hy' hy]
  omega

/-- Every pixel of the grid after the write of one pixel (R58, R155). -/
theorem pixelOn_writePixel (s : State) (base : Nat) (v : Bool) {y x' y' : Nat} {x : BitVec 23} (hy : y < 11) (hy' : y' < 11) :
    (writePixel (pixAddr base x.toNat y) x v s).pixelOn base x' y' =
      if x' = x.toNat ∧ y' = y then v else s.pixelOn base x' y' := by
  rw [State.pixelOn, load_writePixel]
  by_cases hbyte : pixAddr base x' y' = pixAddr base x.toNat y
  · rw [if_pos hbyte, pixWrite_and_mask, ← hbyte]
    simp only [pixel_eq_iff (base := base) hy hy', hbyte, true_and, State.pixelOn]
  · rw [if_neg hbyte, if_neg fun h => hbyte ((pixel_eq_iff hy hy').mp h).1]
    rfl

/-- Settles O26: a SETPIX that ends with OK wrote an in-bounds pixel. -/
theorem setpixUpdatesPixelGrid : Obligations.SetpixUpdatesPixelGrid := by
  intro s t v y x h hok x' y' _ hy'
  cases exec_does h with
  | setpix _ _ _ _ hy _ _ => exact pixelOn_writePixel s s.viewBase.toNat v hy hy'
  | ignored | illegal | sequence | oob => cases hok

/-! ### Two writes of one pixel -/

/-- A written entry goes away when its address is erased. -/
theorem erase_insert (m : Memory) (a : Nat) (v : Byte) : (Memory.insert m a v).erase a = m.erase a := by
  induction m with
  | nil => simp [Memory.insert, Memory.erase]
  | cons c m ih =>
    obtain ⟨k, b⟩ := c
    rw [Memory.insert]
    split
    · simp [Memory.erase]
    · simp only [Memory.erase, List.filter_cons] at ih ⊢
      rw [ih]

theorem erase_erase (m : Memory) (a : Nat) : (m.erase a).erase a = m.erase a := by
  simp [Memory.erase]

theorem erase_write (m : Memory) (a : Nat) (v : Byte) : (m.write a v).erase a = m.erase a := by
  rw [Memory.write]
  split
  · exact erase_erase m a
  · rw [erase_insert, erase_erase]

/-- Of two writes to one address the second alone counts, down to the list that holds the buffer. -/
theorem write_write (m : Memory) (a : Nat) (u v : Byte) : (m.write a u).write a v = m.write a v := by
  rw [Memory.write, erase_write, ← Memory.write]

/-- Of two writes to one pixel of a byte the second alone counts (R152). -/
theorem pixWrite_pixWrite (old : Byte) (x : Nat) (u v : Bool) : pixWrite (pixWrite old x u) x v = pixWrite old x v := by
  apply BitVec.eq_of_getLsbD_eq
  intro j hj
  simp only [getLsbD_pixWrite _ _ _ _ hj]
  split <;> rfl

theorem writePixel_writePixel (s : State) (a : Nat) (x : BitVec 23) (u v : Bool) :
    writePixel a x v (writePixel a x u s) = writePixel a x v s := by
  have hbuf : (writePixel a x v (writePixel a x u s)).buf = (writePixel a x v s).buf := by
    rw [writePixel_buf, writePixel_buf, writePixel_buf, write_write, load_writePixel, if_pos rfl, pixWrite_pixWrite]
  exact congrArg (fun m => (s.setBuf m).setLast .ok) hbuf

/-- Settles O28: the second SETPIX meets the view of the first, and its write hides the first's. -/
theorem lastSetpixWins : Obligations.LastSetpixWins := by
  intro s t v v' y x hst h
  cases exec_does h with
  | ignored _ hf => exact absurd hf (not_faulted_of_building hst)
  | illegal _ _ hw => cases hw
  | sequence _ _ _ hl =>
    rw [hst] at hl
    cases hl
  | oob _ _ _ _ ho => rw [exec_setpix_oob hst ho]; exact exec_setpix_oob hst ho
  | setpix _ _ _ _ hy hx ha =>
    rw [exec_setpix_writes hst hy hx ha, ← writePixel_writePixel s _ x v v']
    exact exec_setpix_writes hst hy hx ha

end Sys2Proof.Proofs
end

section
/-!
SUPPORT. The header as a list of messages (R41, R55, R95): its bytes field by field, what each command makes of it, and what the
reference decoder reads of it.
-/

namespace Sys2Proof.Proofs

open Sys2Proof.Machine Sys2Proof.Laws Sys2Proof.Safety

/-! ### The bytes of the header, field by field -/

section
variable (p : Params) (brt : Byte) (c : Rtc) (msgs : List Message)

theorem headerAt_magic {a : Nat} (ha : a < magicLen p) : headerAt p brt c msgs a = p.magic.getD a 0 := by
  rw [headerAt, if_pos ha]

theorem headerAt_brightness : headerAt p brt c msgs (offBrightness p) = brt := by
  rw [headerAt, if_neg (by simp only [offBrightness]; omega), if_pos rfl]

theorem headerAt_blink : headerAt p brt c msgs (offBlink p) = flagByte (msgs.map (·.style.blink)) := by
  rw [headerAt, if_neg (by simp only [offBlink]; omega), if_neg (by simp only [offBlink, offBrightness]; omega), if_pos rfl]

theorem headerAt_border : headerAt p brt c msgs (offBorder p) = flagByte (msgs.map (·.style.border)) := by
  rw [headerAt, if_neg (by simp only [offBorder]; omega), if_neg (by simp only [offBorder, offBrightness]; omega),
    if_neg (by simp only [offBorder, offBlink]; omega), if_pos rfl]

theorem headerAt_spdMode {i : Nat} (hi : i < 8) : headerAt p brt c msgs (offSpdMode p i) = packedByte msgs i := by
  unfold headerAt
  simp only [offBrightness, offBlink, offBorder, offSpdMode, offLen]
  simp (disch := omega) only [if_neg, if_pos]
  congr 1
  omega

/-- The two bytes of a length, high byte first (R52). -/
theorem headerAt_len {i j : Nat} (hi : i < 8) (hj : j < 2) :
    headerAt p brt c msgs (offLen p i + j) = (lengthBytes msgs i).getD j 0 := by
  have hslot : (offLen p i + j - offLen p 0) / 2 = i := by simp only [offLen]; omega
  have hbyte : (offLen p i + j - offLen p 0) % 2 = j := by simp only [offLen]; omega
  rw [headerAt, hslot, hbyte]
  simp only [offBrightness, offBlink, offBorder, offLen, offReserved1]
  simp (disch := omega) only [if_neg, if_pos]

theorem headerAt_timestamp {j : Nat} (hj : j < 6) :
    headerAt p brt c msgs (offTimestamp p + j) = (timestampBytes c).getD j 0 := by
  unfold headerAt
  simp only [offBrightness, offBlink, offBorder, offLen, offReserved1, offTimestamp]
  simp (disch := omega) only [if_neg, if_pos, Nat.add_sub_cancel_left]

/-- Without messages everything but the magic, the brightness and the timestamp is zero (R112). -/
theorem headerAt_nil_zero {a : Nat} (hlo : magicLen p < a) (hts : a < offTimestamp p ∨ offTimestamp p + 6 ≤ a) :
    headerAt p brt c [] a = 0 := by
  have hlen : ∀ i j, (lengthBytes [] i).getD j 0 = 0 := fun i j => getD_zeros 2 j
  have hflag : flagByte [] = 0 := rfl
  have hpacked : ∀ i, packedByte [] i = 0 := fun i => rfl
  have hnot : ¬ (offTimestamp p ≤ a ∧ a < offTimestamp p + 6) := by omega
  rw [headerAt, if_neg hlo.not_gt, if_neg (by simp only [offBrightness]; omega)]
  simp only [List.map_nil, hlen, hflag, hpacked, hnot, if_false, ite_self]

/-- One more message writes its own fields and no other byte of the header (R137). -/
theorem headerAt_snoc (hc : msgs.length < 8) (sty : Style) (n : BitVec 19) (a : Nat) :
    headerAt p brt c (msgs ++ [⟨sty, n.toNat⟩]) a =
      if a = offBlink p then setBit (headerAt p brt c msgs a) msgs.length sty.blink
      else if a = offBorder p then setBit (headerAt p brt c msgs a) msgs.length sty.border
      else if a = offSpdMode p msgs.length then spdMode sty.speed sty.mode
      else if a = offLen p msgs.length then n.extractLsb' 8 8
      else if a = offLen p msgs.length + 1 then n.extractLsb' 0 8
      else headerAt p brt c msgs a := by
  by_cases hblink : a = offBlink p
  · rw [if_pos hblink, hblink, headerAt_blink, headerAt_blink, List.map_append]
    simpa using flagByte_snoc (msgs.map (·.style.blink)) sty.blink (by simpa using hc)
  by_cases hborder : a = offBorder p
  · rw [if_neg hblink, if_pos hborder, hborder, headerAt_border, headerAt_border, List.map_append]
    simpa using flagByte_snoc (msgs.map (·.style.border)) sty.border (by simpa using hc)
  rw [if_neg hblink, if_neg hborder]
  by_cases hspd : a = offSpdMode p msgs.length
  · rw [if_pos hspd, hspd, headerAt_spdMode _ _ _ _ hc, packedByte_snoc]
  by_cases hhigh : a = offLen p msgs.length
  · have hbytes := headerAt_len p brt c (msgs ++ [⟨sty, n.toNat⟩]) hc (j := 0) (by decide)
    rw [if_neg hspd, if_pos hhigh, hhigh]
    rwa [lengthBytes_snoc] at hbytes
  by_cases hlow : a = offLen p msgs.length + 1
  · have hbytes := headerAt_len p brt c (msgs ++ [⟨sty, n.toNat⟩]) hc (j := 1) (by decide)
    rw [if_neg hspd, if_neg hhigh, if_pos hlow, hlow]
    rwa [lengthBytes_snoc] at hbytes
  rw [if_neg hspd, if_neg hhigh, if_neg hlow, headerAt, headerAt, if_neg hblink, if_neg hborder, if_neg hblink,
    if_neg hborder]
  simp only [offSpdMode, offLen, offBorder, offBlink, offBrightness, offReserved1] at hspd hhigh hlow hblink hborder ⊢
  refine ite_congr rfl (fun _ => rfl) fun _ => ite_congr rfl (fun _ => rfl) fun _ => ?_
  refine ite_congr rfl (fun _ => packedByte_snoc_of_ne _ _ (by omega)) fun _ => ?_
  refine ite_congr rfl (fun _ => ?_) fun _ => rfl
  rw [lengthBytes_snoc_of_ne _ _ (by omega)]

end

/-! ### The header after each command -/

section
variable {s t : State} {brt : Byte} {c : Rtc} {msgs : List Message}

/-- INIT leaves the header of no messages (R112). -/
theorem headerIs_openPayload (s : State) (brt : Byte) : HeaderIs (openPayload brt s) brt s.rtc [] := by
  rw [headerIs_iff]
  refine ⟨fun a ha => ?_, rfl⟩
  rw [openPayload_params] at ha ⊢
  rw [load_openPayload]
  by_cases hmagic : a < magicLen s.params
  · rw [read_initHeader_magic hmagic, headerAt_magic _ _ _ _ hmagic]
  by_cases hbrt : a = offBrightness s.params
  · rw [hbrt, read_initHeader_brightness, headerAt_brightness]
  by_cases hts : offTimestamp s.params ≤ a ∧ a < offTimestamp s.params + 6
  · obtain ⟨j, rfl⟩ := Nat.exists_eq_add_of_le hts.1
    have hj : j < 6 := by omega
    rw [read_initHeader_timestamp hj, headerAt_timestamp _ _ _ _ hj]
  · have := header_offsets s.params
    rw [read_initHeader_zero (by omega) ha (by omega), headerAt_nil_zero _ _ _ (by omega) (by omega)]

/-- `HeaderIs` depends on the parameters, COUNT and the header bytes alone. -/
theorem headerIs_congr (hp : t.params = s.params) (hc : t.count = s.count)
    (hb : ∀ a < hdrLen s.params, t.load a = s.load a) (h : HeaderIs s brt c msgs) : HeaderIs t brt c msgs := by
  rw [headerIs_iff] at h ⊢
  obtain ⟨hbytes, hlen⟩ := h
  rw [hp, hc]
  exact ⟨fun a ha => (hb a ha).trans (hbytes a ha), hlen⟩

/-- The header with another brightness differs in that byte alone (R116). -/
theorem headerAt_of_ne_brightness (p : Params) (brt brt' : Byte) (c : Rtc) (msgs : List Message) {a : Nat}
    (ha : a ≠ offBrightness p) : headerAt p brt' c msgs a = headerAt p brt c msgs a := by
  simp only [headerAt, ha, if_false]

theorem headerIs_overwriteBrightness (h : HeaderIs s brt c msgs) (brt' : Byte) :
    HeaderIs (overwriteBrightness brt' s) brt' c msgs := by
  rw [headerIs_iff] at h ⊢
  obtain ⟨hbytes, hlen⟩ := h
  refine ⟨fun a ha => ?_, hlen⟩
  rw [overwriteBrightness_params] at ha ⊢
  rw [load_overwriteBrightness]
  by_cases hbrt : a = offBrightness s.params
  · rw [if_pos hbrt, hbrt, headerAt_brightness]
  · rw [if_neg hbrt, hbytes a ha, headerAt_of_ne_brightness _ _ _ _ _ hbrt]

/-- ADDMSG appends its message (R137). -/
theorem headerIs_appendSlot (hh : hdrLen s.params ≤ s.rawLen.toNat) (hc : s.count.toNat < 8) (h : HeaderIs s brt c msgs)
    (sty : Style) (n : BitVec 19) : HeaderIs (appendSlot sty n s) brt c (msgs ++ [⟨sty, n.toNat⟩]) := by
  rw [headerIs_iff] at h ⊢
  obtain ⟨hbytes, hlen⟩ := h
  refine ⟨fun a ha => ?_, ?_⟩
  · rw [appendSlot_params] at ha ⊢
    rw [load_appendSlot_ascending hh hc ha, headerAt_snoc _ _ _ _ (hlen ▸ hc), hbytes a ha, hlen]
  · rw [appendSlot_count_toNat s sty n hc, List.length_append, hlen]
    rfl

theorem headerIs_writePixel (h : HeaderIs s brt c msgs) {b : Nat} (hb : hdrLen s.params ≤ b) (x : BitVec 23) (v : Bool) :
    HeaderIs (writePixel b x v s) brt c msgs :=
  headerIs_congr (s := s) rfl rfl (fun a ha => (load_writePixel s b x v a).trans (if_neg (ha.trans_le hb).ne)) h

/-- A command that does not end with OK is about nothing new. -/
theorem headerAfter_of_last_ne_ok {i : Instr} (hl : t.last ≠ .ok) (h : HeaderContent) : headerAfter i t h = h :=
  if_neg hl

/-- Every case of the dispatch and of the command rules takes the header to that of the updated content. -/
theorem headerIs_of_does {i : Instr} {h : HeaderContent} (hinv : Inv s) (hs : HeaderIs s h.brt h.time h.msgs)
    (hdoes : Does s i t) : HeaderIs t (headerAfter i t h).brt (headerAfter i t h).time (headerAfter i t h).msgs := by
  cases hdoes with
  | ignored | illegal | sequence | slotsFull | lenOverflow | capacity | oob | size =>
    rwa [headerAfter_of_last_ne_ok (by simp)]
  | nop | final => exact hs
  | init brt _ _ => exact headerIs_openPayload s brt
  | setbrt brt _ _ => exact headerIs_overwriteBrightness hs brt
  | addmsg sty n hst _ hc _ _ =>
    have hlay := layout_of_building hinv hst
    exact headerIs_appendSlot (hdrLen_le_rawLen hlay) (Nat.lt_of_le_of_ne hinv.countLe hc) hs sty n
  | setpix v y x hst _ _ _ =>
    exact headerIs_writePixel hs (hdrLen_le_viewPixAddr (layout_of_building hinv hst) x y) x v

end

/-- Settles O45: an INIT that ends with OK opened a payload, and every case of a command updates the header as its content. -/
theorem headerRefinesMessageList : Obligations.HeaderRefinesMessageList := by
  refine ⟨fun s t b h hok => ?_, fun i s t h hinv hs hexec => headerIs_of_does hinv hs (exec_does hexec)⟩
  rw [eq_openPayload_of_does_init (exec_does h) hok]
  exact headerIs_openPayload s b

/-! ### The reference decoder -/

section
variable (p : Params) (brt : Byte) (c : Rtc) (msgs : List Message)

theorem take_renderHeader : (renderHeader p brt c msgs).take (magicLen p) = p.magic := by
  simp only [renderHeader, List.append_assoc]
  exact List.take_left

/-- The nibble the speed stands in is a legal one (R92, R94). -/
theorem speedDecode_setWidth (spd : BitVec 3) : speedDecode (spd.setWidth 8) = some spd := by
  revert spd; decide

/-- A count of 16 bits is read back from its two bytes (R52). -/
theorem toNat_lengthBytes {g : Nat} (hg : g ≤ 65535) :
    (BitVec.ofNat 8 (g / 256)).toNat * 256 + (BitVec.ofNat 8 (g % 256)).toNat = g := by
  rw [BitVec.toNat_ofNat, BitVec.toNat_ofNat]
  omega

/-- The decoder reads of a slot what the messages say of it (R52, R69, R94). -/
theorem slotDecode_renderHeader (hgroups : ∀ m ∈ msgs, m.groups ≤ 65535) {i : Nat} (hi : i < 8) :
    slotDecode p (renderHeader p brt c msgs) i = slotOf msgs i := by
  have hblink := getD_renderHeader p brt c msgs (a := offBlink p) (by simp only [offBlink, hdrLen]; omega)
  have hborder := getD_renderHeader p brt c msgs (a := offBorder p) (by simp only [offBorder, hdrLen]; omega)
  have hspd := getD_renderHeader p brt c msgs (a := offSpdMode p i) (by simp only [offSpdMode, hdrLen]; omega)
  have hhigh := getD_renderHeader p brt c msgs (a := offLen p i + 0) (by simp only [offLen, hdrLen]; omega)
  have hlow := getD_renderHeader p brt c msgs (a := offLen p i + 1) (by simp only [offLen, hdrLen]; omega)
  rw [headerAt_blink] at hblink
  rw [headerAt_border] at hborder
  rw [headerAt_spdMode _ _ _ _ hi] at hspd
  rw [headerAt_len _ _ _ _ hi (by decide)] at hhigh hlow
  rw [slotDecode, hblink, hborder, hspd, hlow, ← Nat.add_zero (offLen p i), hhigh, getLsbD_flagByte _ hi,
    getLsbD_flagByte _ hi]
  simp only [List.getD_eq_getElem?_getD, List.getElem?_map, packedByte, lengthBytes, slotOf]
  cases hm : msgs[i]? with
  | none => rfl
  | some m =>
    have hlen := toNat_lengthBytes (hgroups m (List.mem_of_getElem? hm))
    simp only [Option.map_some, Option.getD_some, spdMode_high, spdMode_low, speedDecode_setWidth]
    exact congrArg (SlotView.mk _ _ _ _) hlen

theorem timestamp_renderHeader :
    (List.range 6).map (fun j => (renderHeader p brt c msgs).getD (offTimestamp p + j) 0) = timestampBytes c := by
  have hbytes : ∀ j ∈ List.range 6,
      (renderHeader p brt c msgs).getD (offTimestamp p + j) 0 = (timestampBytes c).getD j 0 := fun j hj => by
    have hj : j < 6 := List.mem_range.mp hj
    rw [getD_renderHeader _ _ _ _ (by simp only [offTimestamp, hdrLen]; omega), headerAt_timestamp _ _ _ _ hj]
  rw [List.map_congr_left hbytes]
  rfl

end

/-- Settles O46: the decoder reads the rendered header field by field. -/
theorem headerDecodeReadsMessages : Obligations.HeaderDecodeReadsMessages := by
  rintro s k c msgs ⟨hs, -⟩ - hgroups
  have hslots : (List.range maxSlots).map (slotDecode s.params (renderHeader s.params (brightnessEncode k) c msgs)) =
      (List.range 8).map (slotOf msgs) :=
    List.map_congr_left fun i hi => slotDecode_renderHeader _ _ _ _ hgroups (List.mem_range.mp hi)
  rw [hs, headerDecode, take_renderHeader, getD_renderHeader _ _ _ _ (by simp only [offBrightness, hdrLen]; omega),
    headerAt_brightness, brightnessDecode_encode, hslots, timestamp_renderHeader, beq_self_eq_true]
  rfl

end Sys2Proof.Proofs
end

section
/-!
SUPPORT. Readout and reset (R40, R60, R172, R177, R230): sealing at the decided capacity, the chunk stream, and what INIT and reset
leave to be read.
-/

namespace Sys2Proof.Proofs

open Sys2Proof.Machine Sys2Proof.Laws Sys2Proof.Safety

/-! ### Sealing and reopening -/

/-- Settles O31: an open payload within the capacity passes the size check. -/
theorem sizeCannotOccurAtDecidedCapacity : Obligations.SizeCannotOccurAtDecidedCapacity := by
  intro s hinv hst hcap
  have hp : padLength s.rawLen.toNat ≤ 8192 := padLength_le_of_building hinv hst hcap
  exact ⟨sealPayload s, exec_final_seals hst hp, rfl, rfl, Nat.mod_eq_of_lt (hp.trans_lt (by decide)), rfl, rfl⟩

/-- Settles O37: after INIT the state is BUILDING and RAW_LEN is the header's length. -/
theorem initHidesOldPayload : Obligations.InitHidesOldPayload := by
  intro s t b h hok
  obtain rfl := eq_openPayload_of_does_init (exec_does h) hok
  refine ⟨fun a => byteRead_openPayload_above s b, fun a ha => ⟨_, byteRead_of_building rfl ?_⟩, fun c k => ?_, rfl⟩
  · rwa [openPayload_rawLen_toNat]
  · exact chunkRead_eq_rdErr nofun

/-! ### The chunk stream -/

section
variable {s : State} {c : ChunkSize}

/-- Chunks read one after the other without an `RD_ERR` are those chunks. -/
theorem collectChunks_map_data (cs : List (List Byte)) : collectChunks (cs.map .data) = .data cs := by
  induction cs with
  | nil => rfl
  | cons b cs ih => rw [List.map_cons, collectChunks, ih]

/-- The slices of `size` bytes of a list, the first `n` of them. -/
def slices (bs : List Byte) (size n : Nat) : List (List Byte) :=
  (List.range n).map fun k => (bs.drop (k * size)).take size

/-- Slices side by side are the front of the list. -/
theorem flatten_slices (bs : List Byte) (size n : Nat) : (slices bs size n).flatten = bs.take (n * size) := by
  induction n with
  | zero => simp [slices]
  | succ n ih =>
    have hsnoc : slices bs size (n + 1) = slices bs size n ++ [(bs.drop (n * size)).take size] := by
      simp [slices, List.range_succ]
    rw [hsnoc, List.flatten_append, ih, List.flatten_singleton, Nat.succ_mul, List.take_add]

/-- Either chunk size divides a padded length (R6, R171, R176). -/
theorem chunkCount_mul_chunkBytes (hmod : s.padLen.toNat % 64 = 0) : chunkCount c s * chunkBytes c = s.padLen.toNat := by
  have hdvd : chunkBytes c ∣ s.padLen.toNat := by
    cases c with
    | usb => exact Nat.dvd_of_mod_eq_zero hmod
    | ble => exact Nat.dvd_trans (by decide) (Nat.dvd_of_mod_eq_zero hmod)
  exact Nat.div_mul_cancel hdvd

/-- The stream of a sealed payload is its slices (R176, R177). -/
theorem chunkStream_eq_slices (hst : s.st = .finalized) (hlen : s.rawLen.toNat ≤ s.padLen.toNat) :
    chunkStream c s = .data (slices (paddedPayload s) (chunkBytes c) (chunkCount c s)) := by
  have hread : (List.range (chunkCount c s)).map (chunkRead c s) =
      (slices (paddedPayload s) (chunkBytes c) (chunkCount c s)).map .data := by
    rw [slices, List.map_map]
    exact List.map_congr_left fun k hk => chunkRead_eq_slice hst hlen (List.mem_range.mp hk)
  rw [chunkStream, if_pos hst, hread, collectChunks_map_data]

end

/-- Settles O35: the stream is the slices of the padded payload, whose number times their size is its length. -/
theorem chunkStreamIsPaddedPayload : Obligations.ChunkStreamIsPaddedPayload := by
  intro s c hinv hst
  obtain ⟨hlen, -, hmod, -⟩ := padLen_of_finalized hinv hst
  have hcount : chunkCount c s * chunkBytes c = s.padLen.toNat := chunkCount_mul_chunkBytes hmod
  refine ⟨_, chunkStream_eq_slices hst hlen, ?_, by rw [slices, List.length_map, List.length_range, hcount], fun b hb => ?_⟩
  · rw [flatten_slices, hcount]
    exact List.take_of_length_le (length_paddedPayload hlen).le
  · obtain ⟨k, hk, rfl⟩ := List.mem_map.mp hb
    exact length_chunk hlen (List.mem_range.mp hk)

/-! ### Reset -/

/-- In IDLE no byte can be read (R60). -/
theorem byteRead_of_idle {s : State} (hst : s.st = .idle) (a : Nat) : byteRead s a = .rdErr :=
  byteRead_eq_rdErr (by simp [hst]) (by simp [hst])

/-- Settles O39: the fields that are no register pass through `assertReset`. -/
theorem resetLeavesSurroundingsAlone : Obligations.ResetLeavesSurroundingsAlone := by
  intro s t bs rest hh h
  rw [step_of_reset hh] at h
  cases h
  exact ⟨rfl, rfl, rfl⟩

/-- Settles O40: the draw that lists the contents byte by byte. -/
theorem resetMayLeaveAnyContents : Obligations.ResetMayLeaveAnyContents := by
  intro s rest contents
  refine ⟨(List.range s.params.rawCapacity).map contents, _, step_of_reset rfl, fun a ha => ?_, byteRead_of_idle rfl⟩
  refine (read_ofBytes _ _ a).trans ((if_pos ha).trans ?_)
  rw [List.getD_eq_getElem?_getD, List.getElem?_map, List.getElem?_range ha]
  rfl

/-- Settles O41: State.reset is written out, and IDLE answers no byte. -/
theorem resetRegisterValues : Obligations.ResetRegisterValues :=
  ⟨rfl, rfl, rfl, rfl, rfl, rfl, rfl, rfl, rfl, rfl, byteRead_of_idle rfl⟩

end Sys2Proof.Proofs
end

section
/-!
SUPPORT. What cannot be observed (R40): bytes of `BUF` at or above RAW_LEN change no answer of a port and no step but in the same
bytes.
-/

namespace Sys2Proof.Proofs

open Sys2Proof.Machine Sys2Proof.Laws Sys2Proof.Safety

/-! ### The ports -/

section
variable {s s' : State}

theorem status_of_sameVisible (h : SameVisible s s') : s.status = s'.status := by
  rw [State.status, State.status, h.st, h.count, h.last, h.fault]

theorem byteRead_of_sameVisible (h : SameVisible s s') (a : Nat) : byteRead s a = byteRead s' a := by
  rw [byteRead, byteRead, ← h.st, ← h.padLen, ← h.rawLen]
  by_cases ha : a < s.rawLen.toNat
  · rw [h.bytes a ha]
  · simp only [ha, and_false, if_false]

end

/-- Settles O48: every port reads registers and bytes below RAW_LEN alone. -/
theorem portsSeeOnlyVisibleBytes : Obligations.PortsSeeOnlyVisibleBytes := by
  intro s s' h
  refine ⟨fun r => ?_, byteRead_of_sameVisible h, fun c k => ?_⟩
  · rw [regRead, regRead, status_of_sameVisible h, h.rawLen, h.padLen, h.faultCmd]
  · simp only [chunkRead, byteRead_of_sameVisible h, h.st, h.padLen]

/-! ### The steps -/

section
variable {s s' t : State}

theorem sameVisible_setHost (h : SameVisible s s') {acts acts' : List HostAct}
    (hacts : acts.map forgetDraw = acts'.map forgetDraw) : SameVisible (s.setHost acts) (s'.setHost acts') :=
  { h with host := hacts }

theorem sameVisible_withPort (h : SameVisible s s') {acts acts' : List HostAct}
    (hacts : acts.map forgetDraw = acts'.map forgetDraw) (c : Rtc) :
    SameVisible ((s.setHost acts).setRtc c) ((s'.setHost acts').setRtc c) :=
  { sameVisible_setHost h hacts with rtc := rfl }

theorem sameVisible_setLast (h : SameVisible s s') (l : Last) : SameVisible (s.setLast l) (s'.setLast l) :=
  { h with last := rfl }

theorem sameVisible_raise (h : SameVisible s s') (c : Cause) (w : Word) : SameVisible (s.raise c w) (s'.raise c w) :=
  { h with st := rfl, last := rfl, fault := congrArg (· ||| causeBit c) h.fault, faultCmd := rfl }

theorem sameVisible_rejectWord (h : SameVisible s s') (w : Word) : SameVisible (rejectWord w s) (rejectWord w s') := by
  rw [rejectWord, rejectWord, ← h.st]
  split
  · exact sameVisible_setLast h _
  · exact sameVisible_raise h _ _

/-- After reset RAW_LEN is 0, so that no byte has to agree, whatever the draws (R40). -/
theorem sameVisible_assertReset (h : SameVisible s s') (bs bs' : List Byte) :
    SameVisible (s.assertReset bs) (s'.assertReset bs') where
  params := h.params
  st := rfl
  count := rfl
  rawLen := rfl
  padLen := rfl
  last := rfl
  fault := rfl
  faultCmd := rfl
  viewBase := rfl
  viewGroups := rfl
  rtc := h.rtc
  host := h.host
  bytes := fun _ ha => absurd ha (Nat.not_lt_zero _)

/-- INIT writes every byte of the header without reading one (R112). -/
theorem read_initHeader_congr (p : Params) (brt : Byte) (c : Rtc) (m m' : Memory) {a : Nat} (ha : a < hdrLen p) :
    (initHeader p brt c m).read a = (initHeader p brt c m').read a := by
  simp only [read_initHeader, ha, if_true]

theorem sameVisible_openPayload (h : SameVisible s s') (brt : Byte) :
    SameVisible (openPayload brt s) (openPayload brt s') :=
  have hlen : BitVec.ofNat 32 (hdrLen s.params) = BitVec.ofNat 32 (hdrLen s'.params) := by rw [h.params]
  { h with
    st := rfl, count := rfl, rawLen := hlen, padLen := rfl, last := rfl, viewBase := hlen, viewGroups := rfl
    bytes := fun a ha => by
      rw [openPayload_rawLen_toNat] at ha
      rw [load_openPayload, load_openPayload, ← h.params, ← h.rtc]
      exact read_initHeader_congr _ _ _ _ _ ha }

theorem sameVisible_overwriteBrightness (h : SameVisible s s') (brt : Byte) :
    SameVisible (overwriteBrightness brt s) (overwriteBrightness brt s') :=
  { h with
    last := rfl
    bytes := fun a ha => by
      rw [load_overwriteBrightness, load_overwriteBrightness, ← h.params, h.bytes a ha] }

/-- ADDMSG zeroes what it makes visible, and the header bytes it reads are visible (R137). -/
theorem sameVisible_appendSlot (h : SameVisible s s') (hh : hdrLen s.params ≤ s.rawLen.toNat) (sty : Style)
    (n : BitVec 19) (hr : s.rawLen.toNat + 11 * n.toNat ≤ s.params.rawCapacity) :
    SameVisible (appendSlot sty n s) (appendSlot sty n s') :=
  { h with
    count := by rw [appendSlot_count, appendSlot_count, h.count]
    rawLen := by rw [appendSlot_rawLen, appendSlot_rawLen, h.rawLen]
    last := rfl
    viewBase := h.rawLen
    viewGroups := rfl
    bytes := fun a ha => by
      rw [appendSlot_rawLen_toNat s sty n hr] at ha
      rw [load_appendSlot, load_appendSlot, ← h.rawLen, ← h.params, ← h.count]
      refine ite_congr rfl (fun _ => rfl) fun hregion => ?_
      have hblink : s.buf.read (offBlink s.params) = s'.buf.read (offBlink s.params) :=
        h.bytes _ (by simp only [hdrLen, offBlink] at hh ⊢; omega)
      have hborder : s.buf.read (offBorder s.params) = s'.buf.read (offBorder s.params) :=
        h.bytes _ (by simp only [hdrLen, offBorder] at hh ⊢; omega)
      have hbyte : s.buf.read a = s'.buf.read a := h.bytes a (by omega)
      rw [read_slotHeader, read_slotHeader, hblink, hborder, hbyte] }

/-- SETPIX in the view reads the byte it writes, which is visible (R30, R152). -/
theorem sameVisible_writePixel (h : SameVisible s s') {b : Nat} (hb : b < s.rawLen.toNat) (x : BitVec 23) (v : Bool) :
    SameVisible (writePixel b x v s) (writePixel b x v s') :=
  { h with
    last := rfl
    bytes := fun a ha => by
      rw [load_writePixel, load_writePixel, h.bytes b hb, h.bytes a ha] }

theorem sameVisible_sealPayload (h : SameVisible s s') : SameVisible (sealPayload s) (sealPayload s') :=
  { h with
    st := rfl
    padLen := by rw [sealPayload_padLen, sealPayload_padLen, h.rawLen]
    last := rfl }

/-- The guards of a command read registers alone, so both states are in the same case of it. -/
theorem does_of_sameVisible {i : Instr} (hinv : Inv s) (h : SameVisible s s') (hdoes : Does s i t) :
    ∃ t', Does s' i t' ∧ SameVisible t t' := by
  cases hdoes with
  | ignored _ hf => exact ⟨_, .ignored i (h.st ▸ hf), sameVisible_setLast h _⟩
  | illegal _ hf hw => exact ⟨_, .illegal i (h.st ▸ hf) hw, sameVisible_raise h _ _⟩
  | sequence _ hf hw hl => exact ⟨_, .sequence i (h.st ▸ hf) hw (h.st ▸ hl), sameVisible_raise h _ _⟩
  | nop hf => exact ⟨_, .nop (h.st ▸ hf), sameVisible_setLast h _⟩
  | init brt hst hb => exact ⟨_, .init brt (h.st ▸ hst) hb, sameVisible_openPayload h brt⟩
  | setbrt brt hst hb => exact ⟨_, .setbrt brt (h.st ▸ hst) hb, sameVisible_overwriteBrightness h brt⟩
  | slotsFull sty n hst hm hc =>
    exact ⟨_, .slotsFull sty n (h.st ▸ hst) hm (h.count ▸ hc), sameVisible_raise h _ _⟩
  | lenOverflow sty n hst hm hc hn =>
    exact ⟨_, .lenOverflow sty n (h.st ▸ hst) hm (h.count ▸ hc) hn, sameVisible_raise h _ _⟩
  | capacity sty n hst hm hc hn hr =>
    exact ⟨_, .capacity sty n (h.st ▸ hst) hm (h.count ▸ hc) hn (h.params ▸ h.rawLen ▸ hr), sameVisible_raise h _ _⟩
  | addmsg sty n hst hm hc hn hr =>
    have hh := hdrLen_le_rawLen (layout_of_building hinv hst)
    exact ⟨_, .addmsg sty n (h.st ▸ hst) hm (h.count ▸ hc) hn (h.params ▸ h.rawLen ▸ hr),
      sameVisible_appendSlot h hh sty n hr⟩
  | oob v y x hst ho => exact ⟨_, .oob v y x (h.st ▸ hst) (h.viewGroups ▸ ho), sameVisible_setLast h _⟩
  | setpix v y x hst hy hx ha =>
    have hb := viewPixAddr_lt_rawLen (layout_of_building hinv hst) hy hx
    have haddr : viewPixAddr s x y = viewPixAddr s' x y := by rw [viewPixAddr, viewPixAddr, h.viewBase]
    refine ⟨_, .setpix v y x (h.st ▸ hst) hy (h.viewGroups ▸ hx) (h.params ▸ haddr ▸ ha), ?_⟩
    rw [← haddr]
    exact sameVisible_writePixel h hb x v
  | size hst hp => exact ⟨_, .size (h.st ▸ hst) (h.rawLen ▸ hp), sameVisible_raise h _ _⟩
  | final hst hp => exact ⟨_, .final (h.st ▸ hst) (h.rawLen ▸ hp), sameVisible_sealPayload h⟩

/-! ### The host's actions without their draws -/

theorem forgetDraw_eq_command {a : HostAct} {w : Word} {c : Rtc} (h : forgetDraw a = .command w c) : a = .command w c := by
  cases a with
  | command => exact h
  | reset => cases h

theorem forgetDraw_eq_reset {a : HostAct} (h : forgetDraw a = .reset []) : ∃ bs, a = .reset bs := by
  cases a with
  | command => cases h
  | reset bs => exact ⟨bs, rfl⟩

/-- Related states have the same kind of action next, and related actions after it. -/
theorem host_of_sameVisible (h : SameVisible s s') {a : HostAct} {rest : List HostAct} (hh : s.host = a :: rest) :
    ∃ a' rest', s'.host = a' :: rest' ∧ forgetDraw a' = forgetDraw a ∧ rest.map forgetDraw = rest'.map forgetDraw := by
  have hmap := h.host.symm
  rw [hh, List.map_cons] at hmap
  obtain ⟨a', rest', hh', ha, hrest⟩ := List.map_eq_cons_iff.mp hmap
  exact ⟨a', rest', hh', ha, hrest.symm⟩

theorem host_of_sameVisible_command (h : SameVisible s s') {w : Word} {c : Rtc} {rest : List HostAct}
    (hh : s.host = .command w c :: rest) :
    ∃ rest', s'.host = .command w c :: rest' ∧ rest.map forgetDraw = rest'.map forgetDraw := by
  obtain ⟨a', rest', hh', ha, hrest⟩ := host_of_sameVisible h hh
  obtain rfl := forgetDraw_eq_command ha
  exact ⟨rest', hh', hrest⟩

end

/-- Settles O47: by the cases of a step, the action of one state being that of the other but for a draw. -/
theorem unreadBytesNeverMatter : Obligations.UnreadBytesNeverMatter := by
  intro s s' t hinv hsame h
  obtain ⟨hh, rfl⟩ | ⟨bs, rest, hh, rfl⟩ | ⟨w, c, rest, i, hh, hd, hdoes⟩ | ⟨w, c, rest, e, hh, hd, rfl⟩ := step_cases h
  · have hh' : s'.host = [] := List.map_eq_nil_iff.mp (by rw [← hsame.host, hh, List.map_nil])
    exact ⟨s', by rw [step, hh'], hsame⟩
  · obtain ⟨a', rest', hh', ha, hrest⟩ := host_of_sameVisible hsame hh
    obtain ⟨bs', rfl⟩ := forgetDraw_eq_reset ha
    exact ⟨_, step_of_reset hh', sameVisible_assertReset (sameVisible_setHost hsame hrest) bs bs'⟩
  · obtain ⟨rest', hh', hrest⟩ := host_of_sameVisible_command hsame hh
    obtain ⟨t', hdoes', hsame'⟩ :=
      does_of_sameVisible (inv_withPort hinv c rest) (sameVisible_withPort hsame hrest c) hdoes
    refine ⟨t', ?_, hsame'⟩
    rw [step_of_command hh', issueWord, hd]
    exact exec_of_does hdoes'
  · obtain ⟨rest', hh', hrest⟩ := host_of_sameVisible_command hsame hh
    refine ⟨_, ?_, sameVisible_rejectWord (sameVisible_withPort hsame hrest c) w⟩
    rw [step_of_command hh', issueWord, hd]

end Sys2Proof.Proofs
end

section
/-!
SUPPORT. The assembler (R97, R98): which operands a line accepts, the command it gives, and the groups an ADDMSGD asks for.
-/

namespace Sys2Proof.Proofs

open Sys2Proof.Machine Sys2Proof.Laws

/-! ### Operands -/

theorem fitField_eq_some_iff {n k : Nat} {b : BitVec n} : fitField n k = some b ↔ k < 2 ^ n ∧ b = BitVec.ofNat n k := by
  obtain hk | hk := Nat.lt_or_ge k (2 ^ n)
  · simp [fitField_of_lt hk, hk, eq_comm]
  · simp [fitField_of_le hk, hk]

theorem pixelValue_eq_some_iff {v : Option Nat} {b : Bool} :
    pixelValue v = some b ↔ (v = none ∨ v = some 0 ∨ v = some 1) ∧ b = decide (v ≠ some 0) := by
  match v with
  | none => simp [pixelValue, eq_comm]
  | some 0 => simp [pixelValue, eq_comm]
  | some 1 => simp [pixelValue, eq_comm]
  | some (k + 2) => simp [pixelValue]

/-! ### The command of a line -/

section
variable {i : Instr}

/-- A line with one operand and a command of that operand. -/
theorem map_fitField_eq_some_iff {n k : Nat} {f : BitVec n → Instr} :
    (fitField n k).map f = some i ↔ k < 2 ^ n ∧ i = f (BitVec.ofNat n k) := by
  simp only [Option.map_eq_some_iff, fitField_eq_some_iff]
  constructor
  · rintro ⟨_, ⟨hk, rfl⟩, rfl⟩
    exact ⟨hk, rfl⟩
  · rintro ⟨hk, rfl⟩
    exact ⟨_, ⟨hk, rfl⟩, rfl⟩

theorem assembleInstr_init_iff {b : Nat} :
    assembleInstr (.init b) = some i ↔ b < 256 ∧ i = .init (BitVec.ofNat 8 b) := map_fitField_eq_some_iff

theorem assembleInstr_setbrt_iff {b : Nat} :
    assembleInstr (.setbrt b) = some i ↔ b < 256 ∧ i = .setbrt (BitVec.ofNat 8 b) := map_fitField_eq_some_iff

theorem assembleInstr_addmsg_iff {g sp m : Nat} {bl bo : Bool} :
    assembleInstr (.addmsg g sp m bl bo) = some i ↔
      (g ≤ 524287 ∧ sp ≤ 7 ∧ m ≤ 15) ∧ i = .addmsg bl bo (BitVec.ofNat 3 sp) (BitVec.ofNat 4 m) (BitVec.ofNat 19 g) := by
  rw [assembleInstr]
  split
  · next hg hs hm =>
    obtain ⟨hgroups, rfl⟩ := fitField_eq_some_iff.mp hg
    obtain ⟨hspeed, rfl⟩ := fitField_eq_some_iff.mp hs
    obtain ⟨hmode, rfl⟩ := fitField_eq_some_iff.mp hm
    have hfit : g ≤ 524287 ∧ sp ≤ 7 ∧ m ≤ 15 := by omega
    simp only [hfit, true_and, Option.some.injEq, eq_comm]
  · next hrefused =>
    simp only [reduceCtorEq, false_iff]
    rintro ⟨⟨hg, hs, hm⟩, -⟩
    exact hrefused _ _ _ (fitField_of_lt (by omega)) (fitField_of_lt (by omega)) (fitField_of_lt (by omega))

theorem assembleInstr_setpix_iff {x y : Nat} {v : Option Nat} :
    assembleInstr (.setpix x y v) = some i ↔
      (x ≤ 8388607 ∧ y ≤ 15 ∧ (v = none ∨ v = some 0 ∨ v = some 1)) ∧
        i = .setpix (decide (v ≠ some 0)) (BitVec.ofNat 4 y) (BitVec.ofNat 23 x) := by
  rw [assembleInstr]
  split
  · next hx hy hv =>
    obtain ⟨hcolumn, rfl⟩ := fitField_eq_some_iff.mp hx
    obtain ⟨hrow, rfl⟩ := fitField_eq_some_iff.mp hy
    obtain ⟨hvalue, rfl⟩ := pixelValue_eq_some_iff.mp hv
    have hfit : x ≤ 8388607 ∧ y ≤ 15 := by omega
    simp only [hfit, hvalue, true_and, Option.some.injEq, eq_comm]
  · next hrefused =>
    simp only [reduceCtorEq, false_iff]
    rintro ⟨⟨hx, hy, hv⟩, -⟩
    exact hrefused _ _ _ (fitField_of_lt (by omega)) (fitField_of_lt (by omega)) (pixelValue_eq_some_iff.mpr ⟨hv, rfl⟩)

end

section
variable {l : AsmLine} {P : Prop} {j : Instr} (h : ∀ {i}, assembleInstr l = some i ↔ P ∧ i = j)
include h

/-- A line has a word exactly when it has a command. -/
theorem assemble_accepts_iff : (∃ w, assemble l = some w) ↔ P := by
  simp only [assemble, Option.map_eq_some_iff]
  exact ⟨fun ⟨_, _, hi, _⟩ => (h.mp hi).1, fun hP => ⟨_, _, h.mpr ⟨hP, rfl⟩, rfl⟩⟩

/-- The word of a line decodes to its command, by the round trip of the encoding. -/
theorem decode_of_assemble {w : Word} (hw : assemble l = some w) : decode w = .ok j := by
  obtain ⟨i, hi, rfl⟩ := Option.map_eq_some_iff.mp hw
  obtain ⟨-, rfl⟩ := h.mp hi
  exact decodeEncodeRoundTrip i

end

/-- Settles O50: each kind of line by the operands its command needs. -/
theorem assemblerAcceptsFittingValues : Obligations.AssemblerAcceptsFittingValues :=
  ⟨fun _ => assemble_accepts_iff assembleInstr_init_iff, fun _ => assemble_accepts_iff assembleInstr_setbrt_iff,
    fun _ _ _ _ _ => assemble_accepts_iff assembleInstr_addmsg_iff,
    fun _ _ _ => assemble_accepts_iff assembleInstr_setpix_iff,
    fun _ _ => decode_of_assemble assembleInstr_init_iff, fun _ _ => decode_of_assemble assembleInstr_setbrt_iff,
    fun _ _ _ _ _ _ => decode_of_assemble assembleInstr_addmsg_iff,
    fun _ _ _ _ => decode_of_assemble assembleInstr_setpix_iff⟩

/-! ### ADDMSGD -/

/-- The groups of a drawable are the fewest that reach its right edge (R98). -/
theorem drawableGroups_spec (d : Drawable) : d.rightEdge ≤ 8 * drawableGroups d ∧ 8 * drawableGroups d < d.rightEdge + 8 := by
  unfold drawableGroups groupWidth
  omega

/-- Settles O51: the expansion is its ADDMSG and the lines of `drawLines`. -/
theorem addmsgdExpandsDrawable : Obligations.AddmsgdExpandsDrawable :=
  fun _ d => ⟨(drawableGroups_spec d).1, (drawableGroups_spec d).2, mem_drawLines d.lit, rfl⟩

end Sys2Proof.Proofs
end
